-- ==== Sys2Proof/Word.lean ====
section
/-! DEFINITION. The word, half word and byte of FLETCHER-CORE (spec 00_scope.md R7: every register and bus access
is 32 bits; R9: bit 0 is the least significant bit). -/

namespace Sys2Proof

/-- A register, command word or bus access: `REG_WIDTH` = `ACC_WIDTH` = 32 bits (R7). -/
abbrev Word := BitVec 32

/-- One 16-bit word of the Fletcher-32 word view (R15, R46). -/
abbrev Half := BitVec 16

/-- One byte of a stream or of buffer memory. -/
abbrev Byte := BitVec 8

end Sys2Proof
end

