-- ==== Sys2Proof/Syntax.lean ====
section
/-! DEFINITION. The commands of FLETCHER-CORE: one constructor for each row of spec/opcode_table.json
(30_encoding.md R69). The immediates are typed by their fields (R66, R67). -/

namespace Sys2Proof

/-- A command. No command names a register (30_encoding.md R68); CSUM32 and CSUM16 have BASE and LEN as implicit
operands. -/
inductive Instr where
  /-- NOP (41_control_commands.md R97) -/
  | nop
  /-- INIT32 (R98) -/
  | init32
  /-- INIT16 (R99) -/
  | init16
  /-- FEED8 IMM8 (42_stream_commands.md R108) -/
  | feed8 (imm8 : Byte)
  /-- FEED16 IMM16 (R109) -/
  | feed16 (imm16 : Half)
  /-- FINAL (41_control_commands.md R100) -/
  | final
  /-- CSUM32 (43_buffer_commands.md R112) -/
  | csum32
  /-- CSUM16 (R113) -/
  | csum16
  /-- CLRERR (41_control_commands.md R102) -/
  | clrerr
deriving DecidableEq, Repr

/-- The mnemonic of a command as spec/opcode_table.json spells it. -/
def Instr.mnemonic : Instr → String
  | .nop => "NOP"
  | .init32 => "INIT32"
  | .init16 => "INIT16"
  | .feed8 _ => "FEED8"
  | .feed16 _ => "FEED16"
  | .final => "FINAL"
  | .csum32 => "CSUM32"
  | .csum16 => "CSUM16"
  | .clrerr => "CLRERR"

end Sys2Proof
end

