-- ==== Sys2Proof/Decode.lean ====
section
/-! DEFINITION. Decoding and encoding of command words (spec 30_encoding.md R65 to R72). The decoder is total: every
32-bit word is exactly one command or ILLEGAL, and an ILLEGAL word is rejected by the kind R71 gives it. -/

namespace Sys2Proof

/-- Why a word is ILLEGAL: the two kinds of R71. -/
inductive Illegal where
  /-- OP in 0x9..0xF -/
  | reservedOpcode
  /-- OP in 0x0..0x8 with a 1 in a reserved-zero bit of its format -/
  | reservedBits
deriving DecidableEq, Repr

/-- The opcode field `OP` = w[31:28] (R66). -/
def opField (w : Word) : BitVec 4 := w.extractLsb' 28 4

/-- Format Z: bits [27:0] must be zero (R66). -/
def decodeZ (w : Word) (i : Instr) : Except Illegal Instr :=
  if w.extractLsb' 0 28 = 0 then .ok i else .error .reservedBits

/-- Format B: bits [27:8] must be zero, IMM8 = w[7:0] (R66, R67). -/
def decodeB (w : Word) (i : Byte → Instr) : Except Illegal Instr :=
  if w.extractLsb' 8 20 = 0 then .ok (i (w.extractLsb' 0 8)) else .error .reservedBits

/-- Format H: bits [27:16] must be zero, IMM16 = w[15:0] (R66, R67). -/
def decodeH (w : Word) (i : Half → Instr) : Except Illegal Instr :=
  if w.extractLsb' 16 12 = 0 then .ok (i (w.extractLsb' 0 16)) else .error .reservedBits

/-- The decoder of R70. -/
def decode (w : Word) : Except Illegal Instr :=
  match (opField w).toNat with
  | 0x0 => decodeZ w .nop
  | 0x1 => decodeZ w .init32
  | 0x2 => decodeZ w .init16
  | 0x3 => decodeB w .feed8
  | 0x4 => decodeH w .feed16
  | 0x5 => decodeZ w .final
  | 0x6 => decodeZ w .csum32
  | 0x7 => decodeZ w .csum16
  | 0x8 => decodeZ w .clrerr
  | _ => .error .reservedOpcode

/-- The encoder: the word of a command, field by field from the formats of R66 and the opcodes of R69. -/
def encode : Instr → Word
  | .nop => 0x0#4 ++ 0#28
  | .init32 => 0x1#4 ++ 0#28
  | .init16 => 0x2#4 ++ 0#28
  | .feed8 imm8 => 0x3#4 ++ 0#20 ++ imm8
  | .feed16 imm16 => 0x4#4 ++ 0#12 ++ imm16
  | .final => 0x5#4 ++ 0#28
  | .csum32 => 0x6#4 ++ 0#28
  | .csum16 => 0x7#4 ++ 0#28
  | .clrerr => 0x8#4 ++ 0#28

/-- One row of the opcode map: a word `w` is the command exactly when `w & mask = pattern` (R69). -/
structure OpcodeRow where
  mnemonic : String
  pattern  : Word
  mask     : Word
deriving DecidableEq, Repr

/-- The complete opcode map of R69 (its `match` column is `pattern`). -/
def opcodeMap : List OpcodeRow :=
  [ ⟨"NOP", 0x00000000, 0xFFFFFFFF⟩, ⟨"INIT32", 0x10000000, 0xFFFFFFFF⟩, ⟨"INIT16", 0x20000000, 0xFFFFFFFF⟩,
    ⟨"FEED8", 0x30000000, 0xFFFFFF00⟩, ⟨"FEED16", 0x40000000, 0xFFFF0000⟩, ⟨"FINAL", 0x50000000, 0xFFFFFFFF⟩,
    ⟨"CSUM32", 0x60000000, 0xFFFFFFFF⟩, ⟨"CSUM16", 0x70000000, 0xFFFFFFFF⟩, ⟨"CLRERR", 0x80000000, 0xFFFFFFFF⟩ ]

/-- The word of an instruction given as the low `nbits` bits of a number, the bits above them zero. A command is one
32-bit word (R65) whose fields are defined by bit position (20_memory.md R50), so there is no byte order. -/
def tableWord (nbits w : Nat) : Word := BitVec.ofNat 32 (w % 2 ^ nbits)

/-- What the decoder reads from the word of a row of spec/opcode_table.json. -/
def decodeTableWord (nbits w : Nat) : Option Instr := (decode (tableWord nbits w)).toOption

end Sys2Proof
end

