-- ==== Sys2Proof/Config.lean ====
section
/-! DEFINITION. What the implementation fixes (spec 00_scope.md R7), the platform parameters the spec leaves OPEN as
a record of plain data, and the free values the spec leaves unspecified. -/

namespace Sys2Proof

/-- `BLOCK_WORDS`: Fletcher-32 words between two reductions (R7, R8; 90_conflicts.md C1). -/
abbrev Config.blockWords : Nat := 360

/-- `MOD32`: the Fletcher-32 modulus of both sums (R7). -/
abbrev Config.mod32 : Nat := 65535

/-- `MOD16`: the Fletcher-16 modulus of both sums (R7). -/
abbrev Config.mod16 : Nat := 255

/-- The number of byte addresses the read port has: 2^`ADDR_WIDTH` (R7, 20_memory.md R49). -/
abbrev Config.addressSpace : Nat := 2 ^ 32

/-- The size in bytes of one register window (10_state.md R21); `ENGINE_BASE` is a multiple of it (R7). -/
abbrev Config.windowBytes : Nat := 64

/-- A free 32-bit value, one for each draw: what ACC0, ACC1 and COUNT hold after a MEMFAULT (43_buffer_commands.md
R115, 93_implementation_defined.md section 2). DESIGN CHOICE in form only, log 5. -/
opaque Config.freeWord : Nat → Word

/-- A free byte, one for each draw: what a byte that another agent writes during a CSUM reads as (20_memory.md R61).
DESIGN CHOICE in form only, log 5. -/
opaque Config.freeByte : Nat → Byte

/-- A run of `size` byte addresses from `base` up that the read port admits. -/
structure Region where
  base : Nat
  size : Nat
deriving DecidableEq, Repr

/-- The OPEN platform parameters of R7 that are not an address of a window: `Readable` as a list of address ranges
(any predicate on 32-bit addresses is one) and `BUS_TIMEOUT`. They are fixed for a run. DESIGN CHOICE: they are carried
in State as data, so that a claim about every state is a claim about every platform (log 1). -/
structure Platform where
  /-- `Readable(a)`: the read port admits exactly the addresses in these ranges. -/
  regions    : List Region
  /-- `BUS_TIMEOUT`: `none`, or the most byte steps one access may take (log 9). -/
  busTimeout : Option Nat
deriving DecidableEq, Repr

end Sys2Proof
end

