-- ==== Sys2Proof/Machine/State.lean ====
section
/-! DEFINITION. The state of the machine: every engine instance's EngineState (spec 10_state.md R19), the buffer
memory, the platform's parameters, the inputs the outside has put to the machine, and the model's own bookkeeping.
Plain data throughout. -/

namespace Sys2Proof.Machine

/-- MODE: which computation is open (10_state.md R33). Value 3 is never held (R23), so it is unrepresentable. -/
inductive Mode where
  | idle
  | f32
  | f16
deriving DecidableEq, Repr

/-- ERRCODE (60_exceptions.md R118). Codes 5..15 are never produced, so they are unrepresentable. -/
inductive ErrCode where
  | none
  | illegal
  | sequence
  | memfault
  | range
deriving DecidableEq, Repr

/-- The whole state of one engine instance (10_state.md R19). -/
structure Engine where
  /-- MODE, STATUS[1:0] (R23, R33) -/
  mode    : Mode
  /-- ACC0: `c0` (F32) or `sum1` (F16) (R24) -/
  acc0    : Word
  /-- ACC1: `c1` (F32) or `sum2` (F16) (R25) -/
  acc1    : Word
  /-- BLKCNT: words summed in the current F32 block (R26) -/
  blkcnt  : BitVec 9
  /-- PEND: an unpaired F32 stream byte is held (R23) -/
  pend    : Bool
  /-- PENDB: that byte (R27) -/
  pendb   : Byte
  /-- COUNT: stream bytes accepted, mod 2^32 (R28) -/
  count   : Word
  /-- RESULT: the last finalised checksum (R29) -/
  result  : Word
  /-- BASE: buffer start address (R30) -/
  base    : Word
  /-- LEN: buffer length in bytes (R31) -/
  len     : Word
  /-- DONE: a checksum was finalised and no stream has started since (R34) -/
  isDone  : Bool
  /-- ERR: an error is recorded (R35) -/
  err     : Bool
  /-- ERRCODE: the first error recorded while ERR = 1 (60_exceptions.md R123) -/
  errcode : ErrCode
deriving DecidableEq, Repr

/-- Every register after reset (10_state.md R44): all zero, MODE = IDLE. -/
def Engine.reset : Engine :=
  { mode := .idle, acc0 := 0, acc1 := 0, blkcnt := 0, pend := false, pendb := 0, count := 0, result := 0,
    base := 0, len := 0, isDone := false, err := false, errcode := .none }

/-- An engine instance that the present access does not address: its window number `ENGINE_BASE / 64` and its state
(10_state.md R43). -/
structure Instance where
  window : Nat
  eng    : Engine
deriving DecidableEq, Repr

/-- Buffer memory: (address, byte) cells, addresses strictly rising, no cell holding the byte an unlisted address
reads as. Machine/Memory.lean has the operations. -/
abbrev Memory := List Host.Cell

/-- A store of one byte to buffer memory by an agent that is not the engine (20_memory.md R60, R61). -/
structure Store where
  addr : Word
  data : Byte
deriving DecidableEq, Repr

/-- What the outside does while one bus write is being carried out. -/
structure During where
  /-- the stores other agents make meanwhile (20_memory.md R61) -/
  stores     : List Store
  /-- the reset input is asserted during the command, when this many bytes have been read
  (70_reset_and_hazards.md R135); `none`: it is not -/
  resetAfter : Option Nat
deriving DecidableEq, Repr

/-- Nothing happens meanwhile. -/
def During.quiet : During := ⟨[], none⟩

/-- What the outside puts to the machine. Bus addresses are plain numbers: the spec fixes no bus width. -/
inductive Input where
  /-- a host write of `bits` bits at bus address `addr`; the value of an access of another width is not looked at -/
  | write (addr bits : Nat) (value : Word) (during : During)
  /-- a host read of `bits` bits at bus address `addr` -/
  | read (addr bits : Nat)
  /-- a store to buffer memory becomes visible to the read port (20_memory.md R60) -/
  | store (st : Store)
  /-- the reset input of the instance in this window, between commands (70_reset_and_hazards.md R135) -/
  | reset (window : Nat)
deriving DecidableEq, Repr

/-- The machine. The instance that the present access addresses stands in `eng` and `window`; all others stand in
`others` (DESIGN CHOICE of representation, log 2). -/
structure State where
  /-- EngineState of the addressed instance (10_state.md R19) -/
  eng          : Engine
  /-- its window: ENGINE_BASE = 64 * window (00_scope.md R7, 10_state.md R21) -/
  window       : Nat
  /-- the other instances (10_state.md R43, 60_exceptions.md R132) -/
  others       : List Instance
  /-- buffer memory (20_memory.md R49). DESIGN CHOICE: one memory, which the read ports of all instances see (log 20),
  apart from the register windows (log 19) -/
  mem          : Memory
  /-- the OPEN platform parameters (00_scope.md R7), one set for all instances (log 20) -/
  plat         : Platform
  /-- what the outside has put to the machine and it has not yet carried out, in bus order (20_memory.md R62), one list for all
  instances; logs 4, 21 -/
  inputs       : List Input
  /-- the words BusRead has returned, newest first (10_state.md R36); log 12 -/
  responses    : List Word
  /-- the addresses read through the read port, newest first, those of one command together
  (20_memory.md R53); logs 12, 21 -/
  portReads    : List Nat
  /-- the stores other agents make while the present access is carried out (20_memory.md R61); log 7 -/
  race         : List Store
  /-- how many free values have been drawn; log 5 -/
  draws        : Nat
  /-- a CSUM has reached MEMFAULT: the run has broken the caller's bounds precondition (43_buffer_commands.md R115);
  log 6 -/
  boundsBroken : Bool
deriving DecidableEq, Repr

/-- Why a step stops with a fault. -/
inductive Fault where
  /-- The platform bus aborted an access that its `BUS_TIMEOUT` does not allow (93_implementation_defined.md section
  2: "a `fault` of the platform, outside the engine's rules"). Raised by `State.complete` in Machine/Bus.lean. Safe:
  nothing is claimed of the state after it (log 9). -/
  | busTimeout
deriving DecidableEq, Repr

/-- Why a step is refused. -/
inductive Refusal where
  /-- A command without a meaning in this model. Raised by no arm: every command has its meaning. Safe. -/
  | notModelled (mnemonic : String)
  /-- A host access to a register window that is not an aligned 32-bit access (10_state.md R37: "A model refuses it").
  Raised by the bus operations of Machine/Bus.lean. Safe. -/
  | hostAccess (addr bits : Nat)
  /-- A bus access or a reset input at a place that is no engine's window: not this hardware's to answer (log 11).
  Raised by the bus operations of Machine/Bus.lean. Safe. -/
  | noWindow (window : Nat)
deriving DecidableEq, Repr

/-- The machine right after reset: every register as R44 says, and the parameters and bookkeeping at the values that
logs 1 to 7 and 12 name. -/
def State.reset : State :=
  { eng := Engine.reset, window := 0, others := [], mem := [],
    plat := { regions := [⟨0, Config.addressSpace⟩], busTimeout := none },
    inputs := [], responses := [], portReads := [], race := [], draws := 0, boundsBroken := false }

end Sys2Proof.Machine
end

