-- ==== Sys2Proof/Machine/Flags.lean ====
section
/-! DEFINITION. STATUS as the host reads it (spec 10_state.md R23, R36) and the error record (60_exceptions.md R118,
R123). -/

namespace Sys2Proof.Machine

/-- The two bits of MODE (10_state.md R19). -/
def Mode.bits : Mode → BitVec 2
  | .idle => 0
  | .f32 => 1
  | .f16 => 2

/-- The four bits of ERRCODE (60_exceptions.md R118). -/
def ErrCode.bits : ErrCode → BitVec 4
  | .none => 0
  | .illegal => 1
  | .sequence => 2
  | .memfault => 3
  | .range => 4

/-- STATUS: ERRCODE at [11:8], ERR at [4], DONE at [3], PEND at [2], MODE at [1:0], all else 0 (10_state.md R23). -/
def Engine.status (e : Engine) : Word :=
  0#20 ++ e.errcode.bits ++ 0#3 ++ BitVec.ofBool e.err ++ BitVec.ofBool e.isDone ++ BitVec.ofBool e.pend ++ e.mode.bits

/-- `raise EngineError(code)`: the ONE operation that takes an error (60_exceptions.md R123). The first code since
CLRERR or reset is kept, ERR is sticky, nothing else changes and control goes nowhere (R124). -/
def Engine.raise (e : Engine) (code : ErrCode) : Engine :=
  { e with errcode := if e.err then e.errcode else code, err := true }

/-- Clearing the error record, the nearest thing to a return from an error (41_control_commands.md R102,
60_exceptions.md R126). -/
def Engine.clearError (e : Engine) : Engine := { e with err := false, errcode := .none }

end Sys2Proof.Machine
end

