-- ==== Sys2Proof/Machine/Memory.lean ====
section
/-! DEFINITION. The operations on buffer memory (spec 20_memory.md R49, R53) and the read port's admission
(00_scope.md R7). The engine only reads; stores are other agents' (R54, R60). -/

namespace Sys2Proof.Machine

/-- What an address with no cell reads as. DESIGN CHOICE (log 3): the spec gives no contents to memory that nobody has
written. -/
def Memory.unlisted : Byte := 0

/-- The byte at an address. -/
def Memory.read : Memory → Nat → Byte
  | [], _ => Memory.unlisted
  | (a', b') :: m, a => if a' = a then b' else Memory.read m a

/-- Store a byte at an address, keeping the canonical form. -/
def Memory.write : Memory → Nat → Byte → Memory
  | [], a, b => if b = Memory.unlisted then [] else [(a, b)]
  | (a', b') :: m, a, b =>
    if a < a' then
      if b = Memory.unlisted then (a', b') :: m else (a, b) :: (a', b') :: m
    else if a = a' then
      if b = Memory.unlisted then m else (a, b) :: m
    else (a', b') :: Memory.write m a b

/-- The stores of other agents, in their order. -/
def Memory.writeAll (m : Memory) (stores : List Store) : Memory :=
  stores.foldl (fun m st => m.write st.addr.toNat st.data) m

/-- Every cell's address is `lo` or more and below 2^32, addresses rise strictly, and no cell holds what an unlisted
address reads as. -/
def Memory.wfFrom : Nat → Memory → Bool
  | _, [] => true
  | lo, (a, b) :: m =>
    decide (lo ≤ a) && decide (a < Config.addressSpace) && decide (b ≠ Memory.unlisted) && Memory.wfFrom (a + 1) m

/-- The canonical form of memory. -/
def Memory.wf (m : Memory) : Bool := Memory.wfFrom 0 m

end Sys2Proof.Machine

namespace Sys2Proof

/-- The addresses of a range. -/
def Region.holds (r : Region) (a : Nat) : Bool := decide (r.base ≤ a) && decide (a < r.base + r.size)

/-- `Readable(a)` (00_scope.md R7). -/
def Platform.readable (p : Platform) (a : Nat) : Bool := p.regions.any (fun r => r.holds a)

/-- The access is longer than `BUS_TIMEOUT` allows, counted in byte steps (70_reset_and_hazards.md R146, R147; log 9).
-/
def Platform.timesOut (p : Platform) (steps : Nat) : Bool :=
  match p.busTimeout with
  | none => false
  | some limit => decide (limit < steps)

end Sys2Proof
end

