-- ==== Sys2Proof/Machine/Operands.lean ====
section
/-! DEFINITION. The operand forms of commands (spec 30_encoding.md R67) and the values commands build from bytes and
sums: concatenation, zero extension, remainders and result packing (00_scope.md R10, R11; 40_algorithms.md R96). -/

namespace Sys2Proof.Machine

/-- The first stream byte of a format H operand: IMM16[7:0] (30_encoding.md R67, 42_stream_commands.md R109). -/
def loByte (imm16 : Half) : Byte := imm16.extractLsb' 0 8

/-- The second stream byte of a format H operand: IMM16[15:8]. -/
def hiByte (imm16 : Half) : Byte := imm16.extractLsb' 8 8

/-- Concatenation `(hi, lo)` of two bytes, `hi * 256 + lo` (00_scope.md R11). -/
def concatBytes (hi lo : Byte) : Half := hi ++ lo

/-- `zext_32` of a half word (00_scope.md R10). -/
def zext32 (w : Half) : Word := w.setWidth 32

/-- `x mod 65535`, exactly, narrowed to a register (40_algorithms.md R84). -/
def rem32 (x : Word) : Word := BitVec.ofNat 32 (x.toNat % Config.mod32)

/-- `(x + y) mod 255` on the exact sum, narrowed to a register (40_algorithms.md R87). -/
def addRem16 (x : Word) (y : Nat) : Word := BitVec.ofNat 32 ((x.toNat + y) % Config.mod16)

/-- `(c1 << 16) | c0` (40_algorithms.md R85). -/
def pack32 (c1 c0 : Word) : Word := (c1 <<< 16) ||| c0

/-- `(sum2 << 8) | sum1` (40_algorithms.md R88), zero-extended (10_state.md R29). -/
def pack16 (sum2 sum1 : Word) : Word := (sum2 <<< 8) ||| sum1

end Sys2Proof.Machine
end

