-- ==== Sys2Proof/Machine/Ops.lean ====
section
/-! DEFINITION. The shared operations of the commands, named as the spec's procedures are: `start`, `finish`
(41_control_commands.md R98, R101), `feedbyte`, `wordstep`, `step16`, `pair32` (42_stream_commands.md R104 to R107),
`csum`, `memfault` (43_buffer_commands.md R111, R115). Taking an error is `Engine.raise`, in Flags.lean. -/

namespace Sys2Proof.Machine

/-- `start(m)` (41_control_commands.md R98). -/
def Engine.start (e : Engine) (m : Mode) : Engine :=
  { e with mode := m, acc0 := 0, acc1 := 0, blkcnt := 0, pend := false, pendb := 0, count := 0, isDone := false }

/-- The reduction `c0 mod 65535`, `c1 mod 65535` that ends a block (00_scope.md R16, 40_algorithms.md R84). -/
def Engine.reduce (e : Engine) : Engine :=
  { e with acc0 := rem32 e.acc0, acc1 := rem32 e.acc1, blkcnt := 0 }

/-- The additions of one word step: `c0 += w`, then `c1 += c0` with the new `c0` (42_stream_commands.md R105). -/
def Engine.addWord (e : Engine) (w : Half) : Engine :=
  { e with acc0 := e.acc0 + zext32 w, acc1 := e.acc1 + (e.acc0 + zext32 w), blkcnt := e.blkcnt + 1 }

/-- `wordstep(w)` (42_stream_commands.md R105). -/
def Engine.wordstep (e : Engine) (w : Half) : Engine :=
  if (e.addWord w).blkcnt = BitVec.ofNat 9 Config.blockWords then (e.addWord w).reduce else e.addWord w

/-- `step16(b)` (42_stream_commands.md R106): the second sum takes the first one just written. -/
def Engine.step16 (e : Engine) (b : Byte) : Engine :=
  { e with acc0 := addRem16 e.acc0 b.toNat, acc1 := addRem16 e.acc1 (addRem16 e.acc0 b.toNat).toNat }

/-- `pair32(b)` (42_stream_commands.md R107). -/
def Engine.pair32 (e : Engine) (b : Byte) : Engine :=
  if e.pend then
    Engine.wordstep { e with pend := false, pendb := 0 } (concatBytes b e.pendb)
  else { e with pendb := b, pend := true }

/-- `feedbyte(b)` (42_stream_commands.md R104). -/
def Engine.feedbyte (e : Engine) (b : Byte) : Engine :=
  if e.mode = .f32 then Engine.pair32 { e with count := e.count + 1 } b
  else Engine.step16 { e with count := e.count + 1 } b

/-- A pending byte is stepped as a word with a zero high byte (41_control_commands.md R101). -/
def Engine.flushPending (e : Engine) : Engine :=
  if e.pend then Engine.wordstep { e with pend := false, pendb := 0 } (concatBytes 0 e.pendb) else e

/-- RESULT, MODE and DONE at the close of a computation (41_control_commands.md R101). -/
def Engine.close (e : Engine) (r : Word) : Engine := { e with result := r, mode := .idle, isDone := true }

/-- `finish()` (41_control_commands.md R101). -/
def Engine.finish (e : Engine) : Engine :=
  if e.mode = .f32 then
    e.flushPending.reduce.close (pack32 e.flushPending.reduce.acc1 e.flushPending.reduce.acc0)
  else e.close (pack16 e.acc1 e.acc0)

/-- The state with another EngineState for the addressed instance. -/
def State.withEngine (s : State) (e : Engine) : State := { s with eng := e }

/-- An error of the addressed instance is recorded (60_exceptions.md R123). -/
def State.raise (s : State) (code : ErrCode) : State := s.withEngine (s.eng.raise code)

/-- Another agent writes this address while the present access is carried out (20_memory.md R61). -/
def State.racing (s : State) (a : Nat) : Bool := s.race.any (fun st => decide (st.addr.toNat = a))

/-- The byte `MemRead(a, 1)` returns: memory's, or a free draw where another agent writes the byte meanwhile
(20_memory.md R53, R60, R61). DESIGN CHOICE, log 19: an address inside a register window is plain memory to the read
port, as to other agents' stores; the spec does not say whether the port and the bus share addresses. -/
def State.portByte (s : State) (a : Nat) : Byte :=
  if s.racing a then Config.freeByte s.draws else s.mem.read a

/-- The state after `MemRead(a, 1)`: the port has seen one read of `a`, and a draw is used up if one was made. -/
def State.afterRead (s : State) (a : Nat) : State :=
  { s with portReads := a :: s.portReads, draws := if s.racing a then s.draws + 1 else s.draws }

/-- `memfault()` (43_buffer_commands.md R115): ACC0, ACC1 and COUNT are free draws. The run is marked as having broken
the caller's bounds precondition (93_implementation_defined.md section 2; log 6). -/
def State.memfault (s : State) : State :=
  { s with
    eng := Engine.raise
      { s.eng with mode := .idle, pend := false, pendb := 0, blkcnt := 0, acc0 := Config.freeWord s.draws,
                   acc1 := Config.freeWord (s.draws + 1), count := Config.freeWord (s.draws + 2) } .memfault
    draws := s.draws + 3
    boundsBroken := true }

/-- The byte loop of `csum` (43_buffer_commands.md R111) over the `n` addresses from `a` up, and what ends it. -/
def State.csumLoop : Nat → Nat → State → State
  | 0, _, s => s.withEngine s.eng.finish
  | n + 1, a, s =>
    if s.plat.readable a then
      State.csumLoop n (a + 1) ((s.afterRead a).withEngine (s.eng.feedbyte (s.portByte a)))
    else s.memfault

/-- `csum(m)` (43_buffer_commands.md R111): the range check is made without truncation (R114). -/
def State.csum (s : State) (m : Mode) : State :=
  if s.eng.base.toNat + s.eng.len.toNat > Config.addressSpace then s.raise .range
  else State.csumLoop s.eng.len.toNat s.eng.base.toNat (s.withEngine (s.eng.start m))

end Sys2Proof.Machine
end

