-- ==== Sys2Proof/Machine/Buffer.lean ====
section
/-! DEFINITION. The buffer commands: CSUM32, CSUM16 (spec 43_buffer_commands.md). -/

namespace Sys2Proof.Machine

/-- CSUM32 (R112). -/
def execCsum32 (s : State) : Host.Outcome State Fault Refusal := .next (s.csum .f32)

/-- CSUM16 (R113). -/
def execCsum16 (s : State) : Host.Outcome State Fault Refusal := .next (s.csum .f16)

end Sys2Proof.Machine
end

