-- ==== Sys2Proof/Machine/Control.lean ====
section
/-! DEFINITION. The control commands: NOP, INIT32, INIT16, FINAL, CLRERR (spec 41_control_commands.md). -/

namespace Sys2Proof.Machine

/-- NOP (R97). -/
def execNop (s : State) : Host.Outcome State Fault Refusal := .next s

/-- INIT32 (R98). -/
def execInit32 (s : State) : Host.Outcome State Fault Refusal := .next (s.withEngine (s.eng.start .f32))

/-- INIT16 (R99). -/
def execInit16 (s : State) : Host.Outcome State Fault Refusal := .next (s.withEngine (s.eng.start .f16))

/-- FINAL (R100). -/
def execFinal (s : State) : Host.Outcome State Fault Refusal :=
  if s.eng.mode = .idle then .next (s.raise .sequence) else .next (s.withEngine s.eng.finish)

/-- CLRERR (R102). -/
def execClrerr (s : State) : Host.Outcome State Fault Refusal := .next (s.withEngine s.eng.clearError)

end Sys2Proof.Machine
end

