-- ==== Sys2Proof/Machine/Stream.lean ====
section
/-! DEFINITION. The stream commands: FEED8, FEED16 (spec 42_stream_commands.md). -/

namespace Sys2Proof.Machine

/-- FEED8 (R108). -/
def execFeed8 (imm8 : Byte) (s : State) : Host.Outcome State Fault Refusal :=
  if s.eng.mode = .idle then .next (s.raise .sequence) else .next (s.withEngine (s.eng.feedbyte imm8))

/-- FEED16 (R109): low byte first. -/
def execFeed16 (imm16 : Half) (s : State) : Host.Outcome State Fault Refusal :=
  if s.eng.mode = .idle then .next (s.raise .sequence)
  else .next (s.withEngine ((s.eng.feedbyte (loByte imm16)).feedbyte (hiByte imm16)))

end Sys2Proof.Machine
end

