-- ==== Sys2Proof/Machine/Dispatch.lean ====
section
/-! DEFINITION. The dispatch of spec 30_encoding.md R70: one arm for each command. -/

namespace Sys2Proof.Machine

def exec (i : Instr) (s : State) : Host.Outcome State Fault Refusal :=
  match i with
  | .nop => Sys2Proof.Machine.execNop s
  | .init32 => Sys2Proof.Machine.execInit32 s
  | .init16 => Sys2Proof.Machine.execInit16 s
  | .feed8 imm8 => Sys2Proof.Machine.execFeed8 imm8 s
  | .feed16 imm16 => Sys2Proof.Machine.execFeed16 imm16 s
  | .final => Sys2Proof.Machine.execFinal s
  | .csum32 => Sys2Proof.Machine.execCsum32 s
  | .csum16 => Sys2Proof.Machine.execCsum16 s
  | .clrerr => Sys2Proof.Machine.execClrerr s

end Sys2Proof.Machine
end

