-- ==== Sys2Proof/Machine/Window.lean ====
section
/-! DEFINITION. The register window of one instance as the host sees it (spec 10_state.md R21, R36). The write of CMD,
which executes a command, is in Bus.lean. -/

namespace Sys2Proof.Machine

/-- `BusRead(off)` (10_state.md R36): CMD, reserved offsets and the reserved bits read as zero (R22, R32). -/
def Engine.busRead (e : Engine) (off : Nat) : Word :=
  match off with
  | 0x04 => e.status
  | 0x08 => e.acc0
  | 0x0C => e.acc1
  | 0x10 => e.blkcnt.setWidth 32
  | 0x14 => e.pendb.setWidth 32
  | 0x18 => e.count
  | 0x1C => e.result
  | 0x20 => e.base
  | 0x24 => e.len
  | _ => 0

/-- `BusWrite(off, v)` at an offset other than CMD (10_state.md R36): BASE and LEN are stored whole (R30, R31), a write
to a read-only or reserved offset has no effect (R32). -/
def Engine.writeRegister (e : Engine) (off : Nat) (v : Word) : Engine :=
  match off with
  | 0x20 => { e with base := v }
  | 0x24 => { e with len := v }
  | _ => e

end Sys2Proof.Machine
end

