-- ==== Sys2Proof/Machine/Bus.lean ====
section
/-! DEFINITION. What the outside can do to the machine: bus accesses to a register window (spec 10_state.md R36, R37,
R39), stores to buffer memory (20_memory.md R60, R61) and the reset input (70_reset_and_hazards.md R135). An access is
one step, because a command is atomic with respect to every host (10_state.md R39); across instances see log 21. -/

namespace Sys2Proof.Machine

/-- `execute(w)` (30_encoding.md R70): an ILLEGAL word raises ILLEGAL before any other check (60_exceptions.md R119). -/
def execute (w : Word) (s : State) : Host.Outcome State Fault Refusal :=
  match decode w with
  | .ok i => exec i s
  | .error _ => .next (s.raise .illegal)

/-- `BusWrite(off, v)` (10_state.md R36). -/
def busWrite (off : Nat) (v : Word) (s : State) : Host.Outcome State Fault Refusal :=
  if off = 0 then execute v s else .next (s.withEngine (s.eng.writeRegister off v))

/-- `BusRead(off)` (10_state.md R36): the word goes to the host, nothing else changes. -/
def busRead (off : Nat) (s : State) : State := { s with responses := s.eng.busRead off :: s.responses }

/-- Take the instance of window `w` out of a list, leaving `old` in its place. -/
def exchange (w : Nat) (old : Instance) : List Instance → Option (Engine × List Instance)
  | [] => none
  | i :: is =>
    if i.window = w then some (i.eng, old :: is)
    else match exchange w old is with
      | some (e, rest) => some (e, i :: rest)
      | none => none

/-- Make the instance of window `w` the addressed one (10_state.md R43); `none` where no instance has that window. -/
def State.select (s : State) (w : Nat) : Option State :=
  if s.window = w then some s
  else match exchange w ⟨s.window, s.eng⟩ s.others with
    | some (e, rest) => some { s with eng := e, window := w, others := rest }
    | none => none

/-- The EngineState of the instance of a window, addressed or not. -/
def State.engineAt (s : State) (w : Nat) : Option Engine :=
  if s.window = w then some s.eng else (s.others.find? (fun i => decide (i.window = w))).map (·.eng)

/-- An access inside the interface: 32 bits at a multiple of 4 (10_state.md R37). `ENGINE_BASE` is a multiple of 64,
so the bus address and the offset have the same alignment. -/
def legalAccess (addr bits : Nat) : Bool := decide (bits = 32) && decide (addr % 4 = 0)

/-- How many bytes were read between an earlier state and a later one. -/
def State.byteSteps (before after : State) : Nat := after.portReads.length - before.portReads.length

/-- Reset (70_reset_and_hazards.md R135): every register of the instance takes its reset value, memory is unchanged. -/
def State.resetEngine (s : State) : State := s.withEngine Engine.reset

/-- Reset arrives during a command that leads from `before` to `after`, when `k` bytes have been read: bytes already
read stay read, no other has been read, the command's other effects are gone (70_reset_and_hazards.md R135; log 8). A
command that reads no more than `k` bytes had its whole effect before the reset. -/
def State.abandon (before after : State) (k : Nat) : State :=
  { after with
    eng := Engine.reset
    portReads := after.portReads.drop (before.byteSteps after - k)
    boundsBroken := if k < before.byteSteps after then before.boundsBroken else after.boundsBroken }

/-- The end of a bus write: a reset that arrived meanwhile takes its effect, the platform's timeout is checked, and the
other agents' stores stand in memory (70_reset_and_hazards.md R135, R146; 20_memory.md R61). -/
def State.complete (before : State) (resetAfter : Option Nat) (after : State) : Host.Outcome State Fault Refusal :=
  let t := match resetAfter with
    | some k => before.abandon after k
    | none => after
  if t.plat.timesOut (before.byteSteps t) then .fault .busTimeout
  else .next { t with mem := t.mem.writeAll t.race, race := [] }

/-- A host write on the bus. -/
def performWrite (addr bits : Nat) (v : Word) (d : During) (s : State) : Host.Outcome State Fault Refusal :=
  match s.select (addr / Config.windowBytes) with
  | none => .refused (.noWindow (addr / Config.windowBytes))
  | some s1 =>
    if legalAccess addr bits then
      match busWrite (addr % Config.windowBytes) v { s1 with race := d.stores } with
      | .next t => State.complete s1 d.resetAfter t
      | .fault r => .fault r
      | .refused r => .refused r
    else .refused (.hostAccess addr bits)

/-- A host read on the bus. -/
def performRead (addr bits : Nat) (s : State) : Host.Outcome State Fault Refusal :=
  match s.select (addr / Config.windowBytes) with
  | none => .refused (.noWindow (addr / Config.windowBytes))
  | some s1 =>
    if legalAccess addr bits then .next (busRead (addr % Config.windowBytes) s1) else .refused (.hostAccess addr bits)

/-- The reset input of the instance of a window. -/
def performReset (w : Nat) (s : State) : Host.Outcome State Fault Refusal :=
  match s.select w with
  | none => .refused (.noWindow w)
  | some s1 => .next s1.resetEngine

/-- A store to buffer memory becomes visible to the read port (20_memory.md R60). -/
def performStore (st : Store) (s : State) : State := { s with mem := s.mem.write st.addr.toNat st.data }

/-- One input of the outside. -/
def perform (i : Input) (s : State) : Host.Outcome State Fault Refusal :=
  match i with
  | .write addr bits v d => performWrite addr bits v d s
  | .read addr bits => performRead addr bits s
  | .store st => .next (performStore st s)
  | .reset w => performReset w s

/-- The bus write that delivers command word `w` to the addressed instance: `BusWrite(0x00, w)` at its `ENGINE_BASE`. -/
def State.commandWrite (s : State) (w : Word) : Input :=
  .write (Config.windowBytes * s.window) 32 w During.quiet

end Sys2Proof.Machine
end

