-- ==== Sys2Proof/Machine/Step.lean ====
section
/-! DEFINITION. One step of the machine: the oldest input that the outside has put to it is carried out. There is no
program counter and no fetch (spec 10_state.md R20). -/

namespace Sys2Proof.Machine

/-- One step. With no input the machine holds its state (60_exceptions.md R134; log 4). DESIGN CHOICE, log 21: the
accesses of all instances are carried out one after the other, so commands of two instances never overlap; 10_state.md
R39 makes a command atomic for the hosts of its own window only. -/
def step (s : State) : Host.Outcome State Fault Refusal :=
  match s.inputs with
  | [] => .next s
  | i :: rest => perform i { s with inputs := rest }

/-- The state whose next input is the CMD write of the given command word to the addressed instance (log 13). -/
def State.withFetchWord (s : State) (nbits w : Nat) : State :=
  { s with inputs := s.commandWrite (tableWord nbits w) :: s.inputs }

end Sys2Proof.Machine
end

