-- ==== Sys2Proof/Machine/AsmLine.lean ====
section
/-! DEFINITION. The lines of a host program (spec 30_encoding.md R73) and the pseudo-instructions (R74), as trees: the
spelling of numbers and comments is not modelled (log 14). Operands are plain numbers, as the assembler reads them. -/

namespace Sys2Proof.Machine

/-- The registers a line can name, with the names of 10_state.md R21. -/
inductive RegName where
  | cmd
  | status
  | acc0
  | acc1
  | blkcnt
  | pendb
  | count
  | result
  | base
  | len
deriving DecidableEq, Repr

/-- The offset of a register (10_state.md R21). -/
def RegName.offset : RegName → Nat
  | .cmd => 0x00
  | .status => 0x04
  | .acc0 => 0x08
  | .acc1 => 0x0C
  | .blkcnt => 0x10
  | .pendb => 0x14
  | .count => 0x18
  | .result => 0x1C
  | .base => 0x20
  | .len => 0x24

/-- One line of a host program (R73), or a pseudo-instruction (R74). -/
inductive AsmLine where
  | nop
  | init32
  | init16
  | feed8 (imm : Nat)
  | feed16 (imm : Nat)
  | final
  | csum32
  | csum16
  | clrerr
  /-- `WR NAME, imm32` -/
  | wr (name : RegName) (imm32 : Nat)
  /-- `RD NAME` -/
  | rd (name : RegName)
  /-- `.word w`: a raw word written to CMD (95_test_vectors.md P3, 92_eei_decisions.md D25) -/
  | word (w : Nat)
  /-- `; text` -/
  | comment
  /-- `FEEDW w` -/
  | feedw (w : Nat)
  /-- `FEEDBYTES b0, ..., b(n-1)` -/
  | feedbytes (bs : List Nat)
  /-- `CHK32 base, len` -/
  | chk32 (base len : Nat)
  /-- `CHK16 base, len` -/
  | chk16 (base len : Nat)
  /-- `STREAM32 b0, ..., b(n-1)` -/
  | stream32 (bs : List Nat)
  /-- `STREAM16 b0, ..., b(n-1)` -/
  | stream16 (bs : List Nat)
deriving DecidableEq, Repr

end Sys2Proof.Machine
end

