-- ==== Sys2Proof/WellFormed.lean ====
section
/-! DEFINITION. Well-formedness: an immediate fits its field (spec 30_encoding.md R66, R73). A command's immediates are
typed by their fields, so every `Instr` is well formed; the checks that can fail are the assembler's. -/

namespace Sys2Proof

/-- A number fits an unsigned field of `n` bits (30_encoding.md R73). -/
def fits (n x : Nat) : Bool := decide (x < 2 ^ n)

/-- Every immediate of a command fits its field (30_encoding.md R66). -/
def Instr.wellFormed : Instr → Bool
  | .feed8 imm8 => fits 8 imm8.toNat
  | .feed16 imm16 => fits 16 imm16.toNat
  | .nop | .init32 | .init16 | .final | .csum32 | .csum16 | .clrerr => true

/-- A register `WR` may name: BASE or LEN (30_encoding.md R73). -/
def Machine.RegName.writable : Machine.RegName → Bool
  | .base | .len => true
  | .cmd | .status | .acc0 | .acc1 | .blkcnt | .pendb | .count | .result => false

/-- The assembler accepts the line: every operand fits its field, and `WR` names BASE or LEN (30_encoding.md R73). -/
def Machine.AsmLine.wellFormed : Machine.AsmLine → Bool
  | .feed8 imm => fits 8 imm
  | .feed16 imm => fits 16 imm
  | .wr name imm32 => name.writable && fits 32 imm32
  | .word w => fits 32 w
  | .feedw w => fits 16 w
  | .feedbytes bs => bs.all (fits 8)
  | .chk32 base len => fits 32 base && fits 32 len
  | .chk16 base len => fits 32 base && fits 32 len
  | .stream32 bs => bs.all (fits 8)
  | .stream16 bs => bs.all (fits 8)
  | .nop | .init32 | .init16 | .final | .csum32 | .csum16 | .clrerr | .rd _ | .comment => true

end Sys2Proof
end

