-- ==== Sys2Proof/Machine/Assembler.lean ====
section
/-! DEFINITION. The assembler of host programs: expansion of pseudo-instructions (spec 30_encoding.md R74) and the bus
operations of a line (R73). -/

namespace Sys2Proof.Machine

/-- The expansion of `FEEDBYTES` (R74): FEED16 of each complete pair in order, the first byte low, then FEED8 of an odd
last byte. -/
def feedLines : List Nat → List AsmLine
  | [] => []
  | [b] => [.feed8 b]
  | b0 :: b1 :: rest => .feed16 (b0 + 256 * b1) :: feedLines rest

/-- The expansion of a pseudo-instruction (R74); any other line is itself. -/
def AsmLine.expand : AsmLine → List AsmLine
  | .feedw w => [.feed16 w]
  | .feedbytes bs => feedLines bs
  | .chk32 base len => [.wr .base base, .wr .len len, .csum32]
  | .chk16 base len => [.wr .base base, .wr .len len, .csum16]
  | .stream32 bs => .init32 :: feedLines bs ++ [.final]
  | .stream16 bs => .init16 :: feedLines bs ++ [.final]
  | l => [l]

/-- The command a line writes to CMD, if it is a command line (R73). -/
def AsmLine.command : AsmLine → Option Instr
  | .nop => some .nop
  | .init32 => some .init32
  | .init16 => some .init16
  | .feed8 imm => some (.feed8 (BitVec.ofNat 8 imm))
  | .feed16 imm => some (.feed16 (BitVec.ofNat 16 imm))
  | .final => some .final
  | .csum32 => some .csum32
  | .csum16 => some .csum16
  | .clrerr => some .clrerr
  | _ => none

/-- `BusWrite(off, v)` on the window of an instance, with nothing happening meanwhile. -/
def writeInput (window off : Nat) (v : Word) : Input := .write (Config.windowBytes * window + off) 32 v During.quiet

/-- The bus operations of one line that is no pseudo-instruction (R73): `MNEMONIC [imm]` is `BusWrite(0x00,
encode(MNEMONIC, imm))`, `WR NAME, v` is `BusWrite(offset(NAME), v)`. -/
def AsmLine.inputs (window : Nat) (l : AsmLine) : List Input :=
  match l with
  | .wr name imm32 => [writeInput window name.offset (BitVec.ofNat 32 imm32)]
  | .rd name => [.read (Config.windowBytes * window + name.offset) 32]
  | .word w => [writeInput window 0 (BitVec.ofNat 32 w)]
  | l => match l.command with
    | some i => [writeInput window 0 (encode i)]
    | none => []

/-- The bus operations of a line for the instance of a window; `none` where the assembler refuses the line (R73). -/
def assemble (window : Nat) (l : AsmLine) : Option (List Input) :=
  if l.wellFormed then some (l.expand.flatMap (AsmLine.inputs window)) else none

end Sys2Proof.Machine
end

