-- ==== Sys2Proof/Machine/Reference.lean ====
section
/-! DEFINITION. The two reference checksum functions, as spec 40_algorithms.md defines them (R81 to R89), their closed
forms (R91) and the state of the reference loop in the middle of a stream (42_stream_commands.md R110). All sums are
mathematical integers (00_scope.md R10). -/

namespace Sys2Proof.Machine

/-- The word view of a byte sequence: little-endian pairs by position, the odd last byte a word with a zero high byte
(20_memory.md R46, R47; 40_algorithms.md R81). -/
def wordView : List Byte → List Half
  | [] => []
  | [b] => [concatBytes 0 b]
  | lo :: hi :: rest => concatBytes hi lo :: wordView rest

/-- Step 3 of Fletcher-32 over a run of words: `c0 += w; c1 += c0` for each (R83). -/
def sumWords (ws : List Half) (c : Nat × Nat) : Nat × Nat :=
  ws.foldl (fun c w => (c.1 + w.toNat, c.2 + (c.1 + w.toNat))) c

/-- Step 4 of Fletcher-32 (R84). -/
def reduceSums (c : Nat × Nat) : Nat × Nat := (c.1 % Config.mod32, c.2 % Config.mod32)

/-- The block loop (R82, R86): while words are left, one block of at most 360, then a reduction. The first argument
bounds the number of blocks. -/
def sumBlocks : Nat → List Half → Nat × Nat → Nat × Nat
  | 0, _, c => c
  | fuel + 1, ws, c =>
    if ws = [] then c
    else sumBlocks fuel (ws.drop Config.blockWords) (reduceSums (sumWords (ws.take Config.blockWords) c))

/-- `(c0, c1)` at the end of `fletcher32(B)` (R86). -/
def fletcher32Sums (bs : List Byte) : Nat × Nat := sumBlocks (wordView bs).length (wordView bs) (0, 0)

/-- `fletcher32(B)` (R85, R86). -/
def fletcher32 (bs : List Byte) : Word :=
  BitVec.ofNat 32 (((fletcher32Sums bs).2 <<< 16) ||| (fletcher32Sums bs).1)

/-- `(sum1, sum2)` at the end of `fletcher16(B)`: reduced after every byte (R87). -/
def fletcher16Sums (bs : List Byte) : Nat × Nat :=
  bs.foldl (fun c b => ((c.1 + b.toNat) % Config.mod16, (c.2 + (c.1 + b.toNat) % Config.mod16) % Config.mod16)) (0, 0)

/-- `fletcher16(B)` (R88, R89). -/
def fletcher16 (bs : List Byte) : Half :=
  BitVec.ofNat 16 (((fletcher16Sums bs).2 <<< 8) ||| (fletcher16Sums bs).1)

/-- The sum of the numbers. -/
def plainSum (xs : List Nat) : Nat := xs.foldr (· + ·) 0

/-- The sum of `(m - k) * x_k` over the `m` numbers `x_0 .. x_(m-1)` (R91): the first has weight `m`, the last 1. -/
def weightedSum : List Nat → Nat
  | [] => 0
  | x :: xs => (xs.length + 1) * x + weightedSum xs

/-- The reference loop's `(c0, c1)` after some words, with a reduction after every 360th word and none at the end of a
block that is not full (42_stream_commands.md R110). `t` is the number of words summed since the last reduction. -/
def runningSums : List Half → Nat → Nat × Nat → Nat × Nat
  | [], _, c => c
  | w :: ws, t, c =>
    if t + 1 = Config.blockWords then runningSums ws 0 (reduceSums (c.1 + w.toNat, c.2 + (c.1 + w.toNat)))
    else runningSums ws (t + 1) (c.1 + w.toNat, c.2 + (c.1 + w.toNat))

end Sys2Proof.Machine
end

