-- ==== Sys2Proof/Safety.lean ====
section
/-! DEFINITION. The terms claims are made in: the invariants of spec 10_state.md R40, the caller's contract of the
buffer commands (20_memory.md R58, R61), command sequences (42_stream_commands.md R110) and what a safe run is. -/

namespace Sys2Proof.Machine

/-- The invariants that every command and reset preserve (10_state.md R40). Clause 7 holds by the types of MODE and
ERRCODE. -/
abbrev Engine.Inv (e : Engine) : Prop :=
  (e.pend = false → e.pendb = 0) ∧
  (e.mode ≠ .f32 → e.pend = false) ∧
  (e.mode ≠ .f32 → e.blkcnt = 0) ∧
  (e.mode = .f16 → e.acc0.toNat ≤ 254 ∧ e.acc1.toNat ≤ 254) ∧
  (e.mode = .f32 →
    e.blkcnt.toNat ≤ 359 ∧
    e.acc0.toNat ≤ 65534 + 65535 * e.blkcnt.toNat ∧
    e.acc1.toNat ≤ 65534 * (e.blkcnt.toNat + 1) + 65535 * e.blkcnt.toNat * (e.blkcnt.toNat + 1) / 2) ∧
  (e.err = false ↔ e.errcode = .none) ∧
  (e.mode.bits ≠ 3 ∧ e.errcode.bits.toNat ≤ 4)

/-- Every instance, addressed or not, meets R40. -/
abbrev State.EnginesInv (s : State) : Prop := s.eng.Inv ∧ ∀ i ∈ s.others, i.eng.Inv

/-- The windows of all instances. -/
def State.windows (s : State) : List Nat := s.window :: s.others.map (·.window)

/-- No two instances have one window: each is at its own ENGINE_BASE (10_state.md R43). -/
abbrev State.WindowsDistinct (s : State) : Prop := s.windows.Nodup

/-- The invariant of the machine: R40 for every instance, memory in its canonical form, windows distinct. -/
abbrev State.Inv (s : State) : Prop := s.EnginesInv ∧ s.mem.wf = true ∧ s.WindowsDistinct

/-- The bytes of `[BASE, BASE+LEN)` as memory holds them: `B[i] = MemRead(BASE + i, 1)` (20_memory.md R49). -/
def State.buffer (s : State) : List Byte :=
  (List.range s.eng.len.toNat).map (fun i => s.mem.read (s.eng.base.toNat + i))

/-- The addresses `BASE .. BASE+k-1`, newest read first, as the read port logs them. -/
def State.readLog (s : State) (k : Nat) : List Nat :=
  ((List.range k).map (fun i => s.eng.base.toNat + i)).reverse

/-- The range does not wrap (20_memory.md R56). -/
abbrev State.rangeFits (s : State) : Prop := s.eng.base.toNat + s.eng.len.toNat ≤ 2 ^ 32

/-- Every byte of the range is Readable (20_memory.md R58). -/
abbrev State.rangeReadable (s : State) : Prop :=
  ∀ i < s.eng.len.toNat, s.plat.readable (s.eng.base.toNat + i) = true

/-- No other agent writes a byte of the range meanwhile (20_memory.md R61). -/
abbrev State.rangeQuiet (s : State) : Prop :=
  ∀ i < s.eng.len.toNat, s.racing (s.eng.base.toNat + i) = false

/-- How many of the first `k` bytes of the range other agents write meanwhile (20_memory.md R61). -/
def State.racedBefore (s : State) (k : Nat) : Nat :=
  (List.range k).countP (fun i => s.racing (s.eng.base.toNat + i))

/-- The conditions of 43_buffer_commands.md R116: what the caller of a buffer command owes. -/
abbrev State.callerContract (s : State) : Prop := s.rangeFits ∧ s.rangeReadable ∧ s.rangeQuiet

/-- Commands one after the other on the addressed instance. -/
def runCommands : List Instr → State → Host.Outcome State Fault Refusal
  | [], s => .next s
  | i :: is, s =>
    match exec i s with
    | .next t => runCommands is t
    | .fault r => .fault r
    | .refused r => .refused r

/-- A command that may stand inside a stream (42_stream_commands.md R110). -/
def mayFeed : Instr → Bool
  | .feed8 _ | .feed16 _ | .nop | .clrerr => true
  | .init32 | .init16 | .final | .csum32 | .csum16 => false

/-- A FEED command. -/
def isFeed : Instr → Bool
  | .feed8 _ | .feed16 _ => true
  | .nop | .clrerr | .init32 | .init16 | .final | .csum32 | .csum16 => false

/-- The stream bytes a command carries, low byte first within FEED16 (30_encoding.md R67). -/
def streamBytes : Instr → List Byte
  | .feed8 b => [b]
  | .feed16 h => [loByte h, hiByte h]
  | .nop | .clrerr | .init32 | .init16 | .final | .csum32 | .csum16 => []

/-- The bytes of a sequence of commands, in command order (42_stream_commands.md R110). -/
def streamOf (cmds : List Instr) : List Byte := cmds.flatMap streamBytes

/-- `k` steps, stopping at the first fault or refusal: `Host.Core.run` of the machine, with `State` written out. -/
def runSteps : Nat → State → Host.Outcome State Fault Refusal
  | 0, s => .next s
  | k + 1, s =>
    match step s with
    | .next t => runSteps k t
    | .fault r => .fault r
    | .refused r => .refused r

/-- A run of `k` steps is safe: no platform fault, no refused access, and no CSUM has broken its caller's bounds
precondition (43_buffer_commands.md R115, 93_implementation_defined.md section 2). -/
def SafeRun (k : Nat) (s : State) : Prop := ∃ t, runSteps k s = .next t ∧ t.boundsBroken = false

end Sys2Proof.Machine
end

