-- ==== Sys2Proof/Certificates/Slice0/Obligations.lean ====
section
/-! DEFINITION. The statements for the provers. Each docstring names the rule of spec/ it formalises. An answer
`exec i s = .next { s with … }` states completion, result and frame at once: every field not written out, memory
among them, is as before. -/

open Sys2Proof Sys2Proof.Machine

/-! ### Encoding and decoding -/

/-- Words written out from 30_encoding.md R66 and R69 decode to the commands they stand for, and the words of
95_test_vectors.md 2.3 are ILLEGAL by the kinds of R71. -/
def Obligations.TableWordsDecodeAsWritten : Prop :=
  decode 0x00000000 = .ok .nop ∧ decode 0x10000000 = .ok .init32 ∧ decode 0x20000000 = .ok .init16 ∧
  decode 0x300000A5 = .ok (.feed8 0xA5) ∧ decode 0x4000C35A = .ok (.feed16 0xC35A) ∧
  decode 0x50000000 = .ok .final ∧ decode 0x60000000 = .ok .csum32 ∧ decode 0x70000000 = .ok .csum16 ∧
  decode 0x80000000 = .ok .clrerr ∧
  decode 0x00000001 = .error .reservedBits ∧ decode 0x30000100 = .error .reservedBits ∧
  decode 0x40010000 = .error .reservedBits ∧ decode 0x80000001 = .error .reservedBits ∧
  decode 0x90000000 = .error .reservedOpcode ∧ decode 0xFFFFFFFF = .error .reservedOpcode

/-- Decoding and encoding agree in both directions, for every command and every operand value (30_encoding.md R66,
R70). -/
def Obligations.DecodeAndEncodeAgree : Prop :=
  ∀ (w : Word) (i : Instr), decode w = .ok i ↔ encode i = w

/-- 30_encoding.md R69: a word is a command exactly when `w & mask = match`, for every row of the map; opcodes 9..F are
ILLEGAL. -/
def Obligations.OpcodeMapDecidesTheCommand : Prop :=
  ∀ w : Word,
    (∀ r ∈ opcodeMap, (w &&& r.mask = r.pattern ↔ ∃ i, decode w = .ok i ∧ i.mnemonic = r.mnemonic)) ∧
    (9 ≤ w.toNat / 2 ^ 28 → decode w = .error .reservedOpcode)

/-- 30_encoding.md R70: every word is exactly one command of the map or ILLEGAL, and no two rows match one word. -/
def Obligations.DecoderIsTotalAndUnambiguous : Prop :=
  ∀ w : Word,
    ((∃ r ∈ opcodeMap, w &&& r.mask = r.pattern) ↔ ∃ i, decode w = .ok i) ∧
    (∀ r ∈ opcodeMap, ∀ r' ∈ opcodeMap, w &&& r.mask = r.pattern → w &&& r'.mask = r'.pattern → r = r')

/-- 30_encoding.md R71, 60_exceptions.md R119: which words are ILLEGAL, and that such a word changes the error record
and nothing else, whatever the state (so before any other check). -/
def Obligations.IllegalWordsOnlyRecordTheError : Prop :=
  ∀ (w : Word) (s : State),
    ((∃ k, decode w = .error k) ↔
      9 ≤ w.toNat / 2 ^ 28 ∨
      (w.toNat / 2 ^ 28 = 3 ∧ w.toNat % 2 ^ 28 / 2 ^ 8 ≠ 0) ∨
      (w.toNat / 2 ^ 28 = 4 ∧ w.toNat % 2 ^ 28 / 2 ^ 16 ≠ 0) ∨
      (w.toNat / 2 ^ 28 ≤ 8 ∧ w.toNat / 2 ^ 28 ≠ 3 ∧ w.toNat / 2 ^ 28 ≠ 4 ∧ w.toNat % 2 ^ 28 ≠ 0)) ∧
    ((∃ k, decode w = .error k) →
      execute w s = .next { s with
        eng := { s.eng with err := true, errcode := if s.eng.err then s.eng.errcode else .illegal } })

/-! ### The step -/

/-- A step runs the delivered command: when the next input is a legal CMD write to an instance's window and its word
decodes to `i`, the step is `exec i` at the state in which that instance is addressed, the input is used up and the
other agents' stores stand in `race`; afterwards those stores are in memory. The platform's timeout is the one thing
that can stop it (10_state.md R22, R39; 20_memory.md R61; 93_implementation_defined.md section 2). The form of inputs
and the unit of the timeout are the model's choice (logs 4, 7, 9). -/
def Obligations.StepRunsTheDeliveredCommand : Prop :=
  ∀ (s s1 : State) (rest : List Input) (k : Nat) (w : Word) (stores : List Store) (i : Instr),
    s.inputs = .write (64 * k) 32 w ⟨stores, none⟩ :: rest →
    State.select { s with inputs := rest } k = some s1 →
    decode w = .ok i →
    step s = match exec i { s1 with race := stores } with
      | .next t =>
        if s.plat.timesOut (s.byteSteps t) then .fault .busTimeout
        else .next { t with mem := t.mem.writeAll stores, race := [] }
      | .fault r => .fault r
      | .refused r => .refused r

/-- With nothing put to it, the machine holds its state (60_exceptions.md R134: "It holds its state from one command to
the next"). That a step with no input answers the same state is the model's choice (log 4). -/
def Obligations.NoInputHoldsTheState : Prop :=
  ∀ s : State, s.inputs = [] → step s = .next s

/-! ### Control commands -/

/-- 41_control_commands.md R97 and 30_encoding.md R72: NOP changes nothing in any state; only the zero word is NOP; a
word of opcode 0 with a bit of [27:0] set is ILLEGAL. -/
def Obligations.NopChangesNothing : Prop :=
  ∀ (s : State) (w : Word),
    exec .nop s = .next s ∧
    execute 0 s = .next s ∧
    (decode w = .ok .nop ↔ w = 0x00000000) ∧
    (w.toNat / 2 ^ 28 = 0 → w ≠ 0 → decode w = .error .reservedBits ∧
      execute w s = .next { s with
        eng := { s.eng with err := true, errcode := if s.eng.err then s.eng.errcode else .illegal } })

/-- 41_control_commands.md R98: INIT32 opens a Fletcher-32 stream in every state, whatever stream was open; RESULT,
BASE, LEN, ERR and ERRCODE keep their values; INIT32 then FINAL gives RESULT 0. -/
def Obligations.Init32OpensAFletcher32Stream : Prop :=
  ∀ (s : State) (w : Word),
    exec .init32 s = .next { s with
      eng := { mode := .f32, acc0 := 0, acc1 := 0, blkcnt := 0, pend := false, pendb := 0, count := 0,
               isDone := false, result := s.eng.result, base := s.eng.base, len := s.eng.len, err := s.eng.err,
               errcode := s.eng.errcode } } ∧
    (decode w = .ok .init32 ↔ w = 0x10000000) ∧
    (∃ t, runCommands [.init32, .final] s = .next t ∧ t.eng.result = 0)

/-- 41_control_commands.md R99: INIT16 opens a Fletcher-16 stream in every state; BLKCNT stays 0 for the whole stream;
INIT16, FEED8 01, FINAL gives RESULT 0x00000101. -/
def Obligations.Init16OpensAFletcher16Stream : Prop :=
  ∀ (s : State) (w : Word) (cmds : List Instr),
    exec .init16 s = .next { s with
      eng := { mode := .f16, acc0 := 0, acc1 := 0, blkcnt := 0, pend := false, pendb := 0, count := 0,
               isDone := false, result := s.eng.result, base := s.eng.base, len := s.eng.len, err := s.eng.err,
               errcode := s.eng.errcode } } ∧
    (decode w = .ok .init16 ↔ w = 0x20000000) ∧
    ((∀ c ∈ cmds, mayFeed c = true) →
      ∃ t, runCommands (.init16 :: cmds) s = .next t ∧ t.eng.mode = .f16 ∧ t.eng.blkcnt = 0) ∧
    (∃ t, runCommands [.init16, .feed8 0x01, .final] s = .next t ∧ t.eng.result = 0x00000101)

/-- 60_exceptions.md R120: FEED8, FEED16 and FINAL with MODE = IDLE record SEQUENCE and change nothing else; with a
stream open they record no error. MODE is IDLE after reset, after FINAL, and after a CSUM that passed its range check,
whether it succeeded or faulted. -/
def Obligations.SequenceErrorExactlyWhenIdle : Prop :=
  State.reset.eng.mode = .idle ∧
  ∀ (s : State) (i : Instr),
    ((i = .final ∨ (∃ b, i = .feed8 b) ∨ ∃ h, i = .feed16 h) →
      (s.eng.mode = .idle →
        exec i s = .next { s with
          eng := { s.eng with err := true, errcode := if s.eng.err then s.eng.errcode else .sequence } }) ∧
      (s.eng.mode ≠ .idle →
        ∃ t, exec i s = .next t ∧ t.eng.err = s.eng.err ∧ t.eng.errcode = s.eng.errcode)) ∧
    ((i = .final ∨ ((i = .csum32 ∨ i = .csum16) ∧ s.rangeFits)) →
      ∃ t, exec i s = .next t ∧ t.eng.mode = .idle)

/-- 41_control_commands.md R101, with 70_reset_and_hazards.md R141 for the value: FINAL in a Fletcher-32 stream adds
the pending byte as a word with a zero high byte, reduces both sums, writes RESULT and closes the stream; COUNT is
unchanged. The invariant of R40 rules out sums that would wrap. -/
def Obligations.FinalClosesAFletcher32Stream : Prop :=
  ∀ s : State, s.eng.Inv → s.eng.mode = .f32 →
    let p := if s.eng.pend then s.eng.pendb.toNat else 0
    let q := if s.eng.pend then s.eng.acc0.toNat + s.eng.pendb.toNat else 0
    let c0 := (s.eng.acc0.toNat + p) % 65535
    let c1 := (s.eng.acc1.toNat + q) % 65535
    exec .final s = .next { s with
      eng := { s.eng with
        mode := .idle, acc0 := BitVec.ofNat 32 c0, acc1 := BitVec.ofNat 32 c1, blkcnt := 0, pend := false, pendb := 0,
        result := BitVec.ofNat 32 (c1 * 65536 + c0), isDone := true } }

/-- 41_control_commands.md R101: FINAL in a Fletcher-16 stream packs the two sums, which R40 bounds by 254, and closes
the stream; ACC0, ACC1 and COUNT keep their values. -/
def Obligations.FinalClosesAFletcher16Stream : Prop :=
  ∀ s : State, s.eng.Inv → s.eng.mode = .f16 →
    exec .final s = .next { s with
      eng := { s.eng with
        mode := .idle, result := BitVec.ofNat 32 (s.eng.acc1.toNat * 256 + s.eng.acc0.toNat), isDone := true } }

/-- 41_control_commands.md R102: CLRERR clears ERR and ERRCODE in every state and changes nothing else; with ERR = 0 it
has no effect; a CLRERR word with a reserved bit set is ILLEGAL; STATUS 0x210 becomes 0. -/
def Obligations.ClrerrClearsOnlyTheErrorRecord : Prop :=
  ∀ (s : State) (w : Word),
    exec .clrerr s = .next { s with eng := { s.eng with err := false, errcode := .none } } ∧
    (decode w = .ok .clrerr ↔ w = 0x80000000) ∧
    (w.toNat / 2 ^ 28 = 8 → w.toNat % 2 ^ 28 ≠ 0 →
      ∃ t, execute w s = .next t ∧ t.eng.err = true) ∧
    (s.eng.Inv → s.eng.err = false → exec .clrerr s = .next s) ∧
    (s.eng.status = 0x00000210 → ∃ t, exec .clrerr s = .next t ∧ t.eng.status = 0x00000000)

/-! ### Stream commands -/

/-- 42_stream_commands.md R104, R105, R107 for one FEED8 of a Fletcher-32 stream: a byte at an even position waits in
PENDB; its partner completes the little-endian word, which is summed exactly (40_algorithms.md R92); the 360th word of
a block is followed by the reduction; COUNT counts mod 2^32. -/
def Obligations.Feed8InAFletcher32Stream : Prop :=
  ∀ (s : State) (b : Byte), s.eng.Inv → s.eng.mode = .f32 →
    let w := s.eng.pendb.toNat + 256 * b.toNat
    let c0 := s.eng.acc0.toNat + w
    let c1 := s.eng.acc1.toNat + c0
    (s.eng.pend = false →
      exec (.feed8 b) s = .next { s with
        eng := { s.eng with count := BitVec.ofNat 32 (s.eng.count.toNat + 1), pend := true, pendb := b } }) ∧
    (s.eng.pend = true → c0 < 2 ^ 32 ∧ c1 < 2 ^ 32) ∧
    (s.eng.pend = true → s.eng.blkcnt.toNat < 359 →
      exec (.feed8 b) s = .next { s with
        eng := { s.eng with
          count := BitVec.ofNat 32 (s.eng.count.toNat + 1), pend := false, pendb := 0,
          acc0 := BitVec.ofNat 32 c0, acc1 := BitVec.ofNat 32 c1,
          blkcnt := BitVec.ofNat 9 (s.eng.blkcnt.toNat + 1) } }) ∧
    (s.eng.pend = true → s.eng.blkcnt.toNat = 359 →
      exec (.feed8 b) s = .next { s with
        eng := { s.eng with
          count := BitVec.ofNat 32 (s.eng.count.toNat + 1), pend := false, pendb := 0,
          acc0 := BitVec.ofNat 32 (c0 % 65535), acc1 := BitVec.ofNat 32 (c1 % 65535), blkcnt := 0 } })

/-- 42_stream_commands.md R106 for one FEED8 of a Fletcher-16 stream: both sums are reduced after the byte, the second
takes the new first; the sums before reduction are at most 509 and 508, the sums after it at most 254. -/
def Obligations.Feed8InAFletcher16Stream : Prop :=
  ∀ (s : State) (b : Byte), s.eng.Inv → s.eng.mode = .f16 →
    let x := s.eng.acc0.toNat + b.toNat
    let y := s.eng.acc1.toNat + x % 255
    x ≤ 509 ∧ y ≤ 508 ∧ x % 255 ≤ 254 ∧ y % 255 ≤ 254 ∧
    exec (.feed8 b) s = .next { s with
      eng := { s.eng with
        count := BitVec.ofNat 32 (s.eng.count.toNat + 1),
        acc0 := BitVec.ofNat 32 (x % 255), acc1 := BitVec.ofNat 32 (y % 255) } }

/-- 42_stream_commands.md R109 for FEED16 with a stream open: it is two FEED8s, low byte first; in a Fletcher-32 stream
with no pending byte it is one word step with the word IMM16; with a pending byte its low byte completes the word and
its high byte becomes the pending byte; COUNT grows by 2. -/
def Obligations.Feed16FeedsTheLowByteFirst : Prop :=
  ∀ (s : State) (h : Half), s.eng.mode ≠ .idle →
    let lo := BitVec.ofNat 8 (h.toNat % 256)
    let hi := BitVec.ofNat 8 (h.toNat / 256)
    ∃ t, exec (.feed16 h) s = .next t ∧
      runCommands [.feed8 lo, .feed8 hi] s = .next t ∧
      t.eng.count = s.eng.count + 2 ∧ t.eng.mode = s.eng.mode ∧ t.eng.isDone = s.eng.isDone ∧
      (s.eng.mode = .f32 → t.eng.pend = s.eng.pend) ∧
      (s.eng.mode = .f32 → s.eng.pend = true → t.eng.pendb = hi) ∧
      (s.eng.Inv → s.eng.mode = .f32 → s.eng.pend = false → s.eng.blkcnt.toNat < 359 →
        t = { s with
          eng := { s.eng with
            count := s.eng.count + 2,
            acc0 := BitVec.ofNat 32 (s.eng.acc0.toNat + h.toNat),
            acc1 := BitVec.ofNat 32 (s.eng.acc1.toNat + (s.eng.acc0.toNat + h.toNat)),
            blkcnt := BitVec.ofNat 9 (s.eng.blkcnt.toNat + 1) } })

/-- 42_stream_commands.md R110: after INIT32 (INIT16), any FEED8 and FEED16 with NOP and CLRERR between them, and FINAL,
RESULT is the reference checksum of the bytes fed, ACC0 and ACC1 the reference sums, COUNT the number of bytes mod 2^32.
When only FEED commands have been issued after INIT32, PEND, BLKCNT and the sums are those of the reference loop. -/
def Obligations.StreamsAgreeWithTheReference : Prop :=
  ∀ (s : State) (cmds : List Instr), (∀ c ∈ cmds, mayFeed c = true) →
    (∃ t, runCommands (.init32 :: cmds ++ [.final]) s = .next t ∧
      t.eng.result = fletcher32 (streamOf cmds) ∧
      t.eng.acc0 = BitVec.ofNat 32 (fletcher32Sums (streamOf cmds)).1 ∧
      t.eng.acc1 = BitVec.ofNat 32 (fletcher32Sums (streamOf cmds)).2 ∧
      t.eng.count = BitVec.ofNat 32 (streamOf cmds).length ∧ t.eng.mode = .idle ∧ t.eng.isDone = true) ∧
    (∃ t, runCommands (.init16 :: cmds ++ [.final]) s = .next t ∧
      t.eng.result = (fletcher16 (streamOf cmds)).setWidth 32 ∧
      t.eng.acc0 = BitVec.ofNat 32 (fletcher16Sums (streamOf cmds)).1 ∧
      t.eng.acc1 = BitVec.ofNat 32 (fletcher16Sums (streamOf cmds)).2 ∧
      t.eng.count = BitVec.ofNat 32 (streamOf cmds).length ∧ t.eng.mode = .idle ∧ t.eng.isDone = true) ∧
    ((∀ c ∈ cmds, isFeed c = true) →
      let j := (streamOf cmds).length
      let c := runningSums ((wordView (streamOf cmds)).take (j / 2)) 0 (0, 0)
      ∃ t, runCommands (.init32 :: cmds) s = .next t ∧
        t.eng.pend = decide (j % 2 = 1) ∧ t.eng.blkcnt = BitVec.ofNat 9 (j / 2 % 360) ∧
        c.1 < 2 ^ 32 ∧ c.2 < 2 ^ 32 ∧
        t.eng.acc0 = BitVec.ofNat 32 c.1 ∧ t.eng.acc1 = BitVec.ofNat 32 c.2)

/-! ### Buffer commands -/

/-- 43_buffer_commands.md R116: when the range fits, every byte of it is Readable and none changes meanwhile, CSUM32
leaves fletcher32 of the buffer in RESULT, the reference sums in ACC0 and ACC1, COUNT = LEN and the computation closed,
whatever was open before; CSUM16 likewise with fletcher16. Each byte of the range has been read once, in ascending
order (20_memory.md R53), and nothing else has changed. -/
def Obligations.BufferCommandsComputeTheReference : Prop :=
  ∀ s : State, s.callerContract →
    exec .csum32 s = .next { s with
      eng := { s.eng with
        mode := .idle, acc0 := BitVec.ofNat 32 (fletcher32Sums s.buffer).1,
        acc1 := BitVec.ofNat 32 (fletcher32Sums s.buffer).2, blkcnt := 0, pend := false, pendb := 0,
        count := s.eng.len, result := fletcher32 s.buffer, isDone := true },
      portReads := s.readLog s.eng.len.toNat ++ s.portReads } ∧
    exec .csum16 s = .next { s with
      eng := { s.eng with
        mode := .idle, acc0 := BitVec.ofNat 32 (fletcher16Sums s.buffer).1,
        acc1 := BitVec.ofNat 32 (fletcher16Sums s.buffer).2, blkcnt := 0, pend := false, pendb := 0,
        count := s.eng.len, result := (fletcher16 s.buffer).setWidth 32, isDone := true },
      portReads := s.readLog s.eng.len.toNat ++ s.portReads }

/-- 20_memory.md R53, R56, R58, R60, 43_buffer_commands.md R114, R115: CSUM32 and CSUM16 read the addresses of the range
in ascending order, each once, up to the whole range or to the first byte that is not Readable, and none if the range
does not fit; no other command reads memory. -/
def Obligations.ReadsAreAscendingAndOnce : Prop :=
  ∀ (s : State) (i : Instr),
    ((i = .csum32 ∨ i = .csum16) →
      ∃ t k, exec i s = .next t ∧ t.portReads = s.readLog k ++ s.portReads ∧ k ≤ s.eng.len.toNat ∧
        (∀ j < k, s.plat.readable (s.eng.base.toNat + j) = true) ∧
        (¬ s.rangeFits → k = 0) ∧
        (s.rangeFits → k < s.eng.len.toNat → s.plat.readable (s.eng.base.toNat + k) = false)) ∧
    (i ≠ .csum32 → i ≠ .csum16 → ∃ t, exec i s = .next t ∧ t.portReads = s.portReads)

/-- 43_buffer_commands.md R114, 60_exceptions.md R122: a range that would wrap past the top address is read nowhere and
records RANGE; every other register keeps its value. -/
def Obligations.WrappingRangeOnlyRecordsRange : Prop :=
  ∀ (s : State) (i : Instr), (i = .csum32 ∨ i = .csum16) →
    2 ^ 32 < s.eng.base.toNat + s.eng.len.toNat →
    exec i s = .next { s with
      eng := { s.eng with err := true, errcode := if s.eng.err then s.eng.errcode else .range } }

/-- 43_buffer_commands.md R115, 60_exceptions.md R121: at the lowest byte of the range that is not Readable the command
stops before reading it, with MODE IDLE and PEND, PENDB, BLKCNT and DONE 0, MEMFAULT recorded, RESULT, BASE and LEN
unchanged and the bytes below it read once each. ACC0, ACC1 and COUNT are left open: some value of each is taken. The
mark `boundsBroken` is the model's form of "a fault of the run" (log 6). -/
def Obligations.UnreadableByteRaisesMemfault : Prop :=
  ∀ (s : State) (i : Instr) (k : Nat), (i = .csum32 ∨ i = .csum16) →
    s.rangeFits → k < s.eng.len.toNat →
    (∀ j < k, s.plat.readable (s.eng.base.toNat + j) = true) →
    s.plat.readable (s.eng.base.toNat + k) = false →
    ∃ (a0 a1 n : Word) (d : Nat), exec i s = .next { s with
      eng := { s.eng with
        mode := .idle, pend := false, pendb := 0, blkcnt := 0, acc0 := a0, acc1 := a1, count := n, isDone := false,
        err := true, errcode := if s.eng.err then s.eng.errcode else .memfault },
      portReads := s.readLog k ++ s.portReads, draws := d, boundsBroken := true }

/-- 20_memory.md R61: a byte of the range that another agent writes while the command runs reads as a free byte, each
with a draw of its own, and the command's other rules hold for the bytes so drawn. How a race is given and that draws are
values of an opaque function of a counter is the model's choice (logs 5, 7). -/
def Obligations.RacingBytesAreFreeAndTheRestHolds : Prop :=
  ∀ s : State, s.rangeFits → s.rangeReadable →
    ∃ bs : List Byte, bs.length = s.eng.len.toNat ∧
      (∀ j < s.eng.len.toNat, s.racing (s.eng.base.toNat + j) = false →
        bs[j]? = some (s.mem.read (s.eng.base.toNat + j))) ∧
      (∀ j < s.eng.len.toNat, s.racing (s.eng.base.toNat + j) = true →
        bs[j]? = some (Config.freeByte (s.draws + s.racedBefore j))) ∧
      exec .csum32 s = .next { s with
        eng := { s.eng with
          mode := .idle, acc0 := BitVec.ofNat 32 (fletcher32Sums bs).1,
          acc1 := BitVec.ofNat 32 (fletcher32Sums bs).2, blkcnt := 0, pend := false, pendb := 0,
          count := s.eng.len, result := fletcher32 bs, isDone := true },
        portReads := s.readLog s.eng.len.toNat ++ s.portReads,
        draws := s.draws + s.racedBefore s.eng.len.toNat } ∧
      exec .csum16 s = .next { s with
        eng := { s.eng with
          mode := .idle, acc0 := BitVec.ofNat 32 (fletcher16Sums bs).1,
          acc1 := BitVec.ofNat 32 (fletcher16Sums bs).2, blkcnt := 0, pend := false, pendb := 0,
          count := s.eng.len, result := (fletcher16 bs).setWidth 32, isDone := true },
        portReads := s.readLog s.eng.len.toNat ++ s.portReads,
        draws := s.draws + s.racedBefore s.eng.len.toNat }

/-- 43_buffer_commands.md R117: the same bytes checksummed from memory at any BASE, or fed by FEED commands in any
split, give the same RESULT, ACC0, ACC1 and COUNT, in both variants. -/
def Obligations.SourceOfTheBytesDoesNotMatter : Prop :=
  ∀ (s s' : State) (cmds : List Instr), s.callerContract → (∀ c ∈ cmds, mayFeed c = true) →
    streamOf cmds = s.buffer →
    (∃ t t', exec .csum32 s = .next t ∧ runCommands (.init32 :: cmds ++ [.final]) s' = .next t' ∧
      t.eng.result = t'.eng.result ∧ t.eng.acc0 = t'.eng.acc0 ∧ t.eng.acc1 = t'.eng.acc1 ∧
      t.eng.count = t'.eng.count) ∧
    (∃ t t', exec .csum16 s = .next t ∧ runCommands (.init16 :: cmds ++ [.final]) s' = .next t' ∧
      t.eng.result = t'.eng.result ∧ t.eng.acc0 = t'.eng.acc0 ∧ t.eng.acc1 = t'.eng.acc1 ∧
      t.eng.count = t'.eng.count)

/-- 20_memory.md R51, R57: the result of a buffer command depends on the bytes only, not on where they are: two buffers
with the same bytes at any two addresses, odd or even, give the same RESULT, ACC0 and ACC1. -/
def Obligations.PlaceOfTheBufferDoesNotMatter : Prop :=
  ∀ s s' : State, s.callerContract → s'.callerContract → s.buffer = s'.buffer →
    ∀ i, (i = Instr.csum32 ∨ i = .csum16) →
    ∃ t t', exec i s = .next t ∧ exec i s' = .next t' ∧
      t.eng.result = t'.eng.result ∧ t.eng.acc0 = t'.eng.acc0 ∧ t.eng.acc1 = t'.eng.acc1

/-! ### The reference functions -/

/-- 40_algorithms.md R91: the closed forms, and that the value does not depend on where the reductions fall. -/
def Obligations.ReferenceHasTheClosedForms : Prop :=
  (∀ bs : List Byte,
    fletcher32 bs = BitVec.ofNat 32
      (((weightedSum ((wordView bs).map BitVec.toNat) % 65535) <<< 16) |||
        (plainSum ((wordView bs).map BitVec.toNat) % 65535)) ∧
    fletcher16 bs = BitVec.ofNat 16
      (((weightedSum (bs.map BitVec.toNat) % 255) <<< 8) ||| (plainSum (bs.map BitVec.toNat) % 255))) ∧
  (∀ (bs : List Byte) (blocks : List (List Half)), blocks.flatten = wordView bs →
    reduceSums (blocks.foldl (fun c ws => reduceSums (sumWords ws c)) (0, 0)) = fletcher32Sums bs ∧
    reduceSums (sumWords (wordView bs) (0, 0)) = fletcher32Sums bs)

/-- 40_algorithms.md R92: the bounds on the sums of a block that starts from reduced sums, that they fit 32 bits up to
360 words and need not at 361. -/
def Obligations.BlockSumsFitThirtyTwoBits : Prop :=
  (∀ (ws : List Half) (c : Nat × Nat), c.1 ≤ 65534 → c.2 ≤ 65534 →
    (sumWords ws c).1 ≤ 65534 + 65535 * ws.length ∧
    (sumWords ws c).2 ≤ 65534 * (ws.length + 1) + 65535 * ws.length * (ws.length + 1) / 2 ∧
    (ws.length ≤ 360 → (sumWords ws c).1 < 2 ^ 32 ∧ (sumWords ws c).2 ≤ 4282122074)) ∧
  (∃ ws : List Half, ws.length = 361 ∧ 2 ^ 32 ≤ (sumWords ws (65534, 65534)).2)

/-- 40_algorithms.md R94, R80: an odd-length buffer has the Fletcher-32 of the buffer extended with one zero byte;
Fletcher-16 has no such property; both functions of the empty buffer are 0. -/
def Obligations.OddLengthIsZeroPadded : Prop :=
  (∀ bs : List Byte, bs.length % 2 = 1 → fletcher32 bs = fletcher32 (bs ++ [0])) ∧
  (∃ bs : List Byte, bs.length % 2 = 1 ∧ fletcher16 bs ≠ fletcher16 (bs ++ [0])) ∧
  fletcher32 [] = 0 ∧ fletcher16 [] = 0

/-- 40_algorithms.md R95: no half of a Fletcher-32 result is 0xFFFF and no byte of a Fletcher-16 result is 0xFF; words
summing to a multiple of 65535 give 0, as FF FF does, and FF gives 0 in Fletcher-16. -/
def Obligations.ResultsAreFullyReduced : Prop :=
  (∀ bs : List Byte,
    (fletcher32Sums bs).1 ≤ 65534 ∧ (fletcher32Sums bs).2 ≤ 65534 ∧
    (fletcher32 bs).toNat = (fletcher32Sums bs).2 * 65536 + (fletcher32Sums bs).1 ∧
    (fletcher16Sums bs).1 ≤ 254 ∧ (fletcher16Sums bs).2 ≤ 254 ∧
    (fletcher16 bs).toNat = (fletcher16Sums bs).2 * 256 + (fletcher16Sums bs).1) ∧
  (∀ bs : List Byte, plainSum ((wordView bs).map BitVec.toNat) % 65535 = 0 → (fletcher32Sums bs).1 = 0) ∧
  fletcher32 [0xFF, 0xFF] = 0x00000000 ∧ fletcher16 [0xFF] = 0x0000

/-! ### Errors -/

/-- 60_exceptions.md R123: recording an error; ERR is sticky under every command word but CLRERR's, and a recorded code
is kept. -/
def Obligations.FirstErrorIsKept : Prop :=
  ∀ (s : State) (w : Word) (code : ErrCode),
    s.eng.raise code = { s.eng with err := true, errcode := if s.eng.err then s.eng.errcode else code } ∧
    (w ≠ 0x80000000 → s.eng.err = true →
      ∃ t, execute w s = .next t ∧ t.eng.err = true ∧ t.eng.errcode = s.eng.errcode) ∧
    (∃ t, execute 0x80000000 s = .next t ∧ t.eng.err = false ∧ t.eng.errcode = .none)

/-- 60_exceptions.md R125: with no error recorded before, the code a command word records is the first that applies, in
the order ILLEGAL, SEQUENCE, RANGE, MEMFAULT, and no code is recorded when none applies. -/
def Obligations.ErrorPriority : Prop :=
  ∀ (s : State) (w : Word), s.eng.err = false → s.eng.errcode = .none →
    ∃ t, execute w s = .next t ∧
      ((∃ k, decode w = .error k) → t.eng.err = true ∧ t.eng.errcode = .illegal) ∧
      (∀ i, decode w = .ok i →
        ((i = .final ∨ (∃ b, i = .feed8 b) ∨ ∃ h, i = .feed16 h) → s.eng.mode = .idle →
          t.eng.err = true ∧ t.eng.errcode = .sequence) ∧
        ((i = .final ∨ (∃ b, i = .feed8 b) ∨ ∃ h, i = .feed16 h) → s.eng.mode ≠ .idle →
          t.eng.err = false ∧ t.eng.errcode = .none) ∧
        ((i = .csum32 ∨ i = .csum16) → ¬ s.rangeFits → t.eng.err = true ∧ t.eng.errcode = .range) ∧
        ((i = .csum32 ∨ i = .csum16) → s.rangeFits → ¬ s.rangeReadable →
          t.eng.err = true ∧ t.eng.errcode = .memfault) ∧
        ((i = .csum32 ∨ i = .csum16) → s.rangeFits → s.rangeReadable →
          t.eng.err = false ∧ t.eng.errcode = .none) ∧
        ((i = .nop ∨ i = .init32 ∨ i = .init16 ∨ i = .clrerr) → t.eng.err = false ∧ t.eng.errcode = .none))

/-- 10_state.md R35: no command's data effect depends on ERR: run from two states that differ in the error record only,
every command gives two states that differ in the error record only. That the two runs are compared at equal draws, so
that values the spec leaves unspecified (after MEMFAULT, or of raced bytes) are equal too, is the model's choice
(log 5). -/
def Obligations.ErrorsDoNotDisturbData : Prop :=
  ∀ (s : State) (i : Instr) (e : Bool) (code : ErrCode),
    ∃ t t', exec i s = .next t ∧
      exec i { s with eng := { s.eng with err := e, errcode := code } } = .next t' ∧
      { t with eng := { t.eng with err := false, errcode := .none } } =
        { t' with eng := { t'.eng with err := false, errcode := .none } }

/-! ### Frames and rules of the whole machine -/

/-- 20_memory.md R54 and 70_reset_and_hazards.md R147: every command completes in every state, and none writes memory:
every byte reads as before. Nor does any command change BASE, LEN, another instance, the platform, or what the outside
has put to the machine. -/
def Obligations.NoCommandWritesMemory : Prop :=
  ∀ (s : State) (i : Instr), ∃ t, exec i s = .next t ∧
    (∀ a, t.mem.read a = s.mem.read a) ∧ t.mem = s.mem ∧
    t.eng.base = s.eng.base ∧ t.eng.len = s.eng.len ∧
    t.window = s.window ∧ t.others = s.others ∧ t.plat = s.plat ∧ t.inputs = s.inputs ∧
    t.responses = s.responses ∧ t.race = s.race

/-- 10_state.md R29, R34: RESULT is written, and DONE set, only by a command that closes a computation, which leaves
DONE = 1, MODE = IDLE and the two sums packed in RESULT. -/
def Obligations.ResultIsWrittenOnlyAtAClose : Prop :=
  ∀ (s t : State) (i : Instr), exec i s = .next t →
    (t.eng.result = s.eng.result ∧ (t.eng.isDone = true → s.eng.isDone = true)) ∨
    ((i = .final ∨ i = .csum32 ∨ i = .csum16) ∧ t.eng.isDone = true ∧ t.eng.mode = .idle ∧
      (t.eng.result = (t.eng.acc1 <<< 16) ||| t.eng.acc0 ∨ t.eng.result = (t.eng.acc1 <<< 8) ||| t.eng.acc0))

/-- 41_control_commands.md R103: INIT32, INIT16 and a CSUM whose range fits do the same whatever stream was open: the
old MODE, ACC0, ACC1, BLKCNT, PEND, PENDB, COUNT and DONE leave no trace, and INIT records no error and writes no
RESULT. That the outcomes are compared at equal draws, so that values the spec leaves unspecified (after MEMFAULT, or of
raced bytes) are equal too, is the model's choice (log 5). -/
def Obligations.StartingAbandonsTheOpenStream : Prop :=
  ∀ (s : State) (m : Mode) (a0 a1 n : Word) (k : BitVec 9) (p d : Bool) (b : Byte) (i : Instr),
    (i = .init32 ∨ i = .init16 ∨ ((i = .csum32 ∨ i = .csum16) ∧ s.rangeFits)) →
    exec i { s with
        eng := { s.eng with
          mode := m, acc0 := a0, acc1 := a1, blkcnt := k, pend := p, pendb := b, count := n, isDone := d } } =
      exec i s ∧
    ((i = .init32 ∨ i = .init16) → ∃ t, exec i s = .next t ∧ t.eng.result = s.eng.result ∧
      t.eng.err = s.eng.err ∧ t.eng.errcode = s.eng.errcode)

/-- 70_reset_and_hazards.md R137: INIT32 or INIT16 followed by CLRERR leaves every register at its reset value except
MODE, RESULT, BASE and LEN; no command performs a full reset. -/
def Obligations.InitThenClrerrIsNearlyAReset : Prop :=
  (∀ s : State,
    runCommands [.init32, .clrerr] s = .next { s with
      eng := { Engine.reset with mode := .f32, result := s.eng.result, base := s.eng.base, len := s.eng.len } } ∧
    runCommands [.init16, .clrerr] s = .next { s with
      eng := { Engine.reset with mode := .f16, result := s.eng.result, base := s.eng.base, len := s.eng.len } }) ∧
  (∀ i : Instr, ∃ s t, exec i s = .next t ∧ t.eng ≠ Engine.reset)

/-- 10_state.md R44, 70_reset_and_hazards.md R136: every register is zero after reset, MODE is IDLE, and STATUS reads
zero. -/
def Obligations.ResetZeroesEveryRegister : Prop :=
  State.reset.eng =
    { mode := .idle, acc0 := 0, acc1 := 0, blkcnt := 0, pend := false, pendb := 0, count := 0, result := 0, base := 0,
      len := 0, isDone := false, err := false, errcode := .none } ∧
  (∀ off, State.reset.eng.busRead off = 0)

/-- The state after reset meets the invariants of 10_state.md R40, and its memory is canonical and its windows distinct
(the two last are the model's own, logs 2 and 3). -/
def Obligations.ResetMeetsTheInvariant : Prop := State.reset.Inv

/-- 10_state.md R40: every step, command, host access or reset, preserves the invariants of every instance. -/
def Obligations.EveryStepKeepsTheEngineInvariants : Prop :=
  ∀ s t : State, s.EnginesInv → step s = .next t → t.EnginesInv

/-- Every step keeps memory in its canonical form and the windows distinct, keeps the number of instances and changes
no platform parameter (00_scope.md R7; the canonical form is the model's own, log 3). -/
def Obligations.EveryStepKeepsMemoryAndPlatform : Prop :=
  ∀ s t : State, s.mem.wf = true → s.WindowsDistinct → step s = .next t →
    t.mem.wf = true ∧ t.WindowsDistinct ∧ t.windows.Perm s.windows ∧ t.plat = s.plat

/-- 10_state.md R43: instances share no state: a step changes no instance other than the one its input addresses. -/
def Obligations.InstancesShareNoState : Prop :=
  ∀ (s t : State) (w : Nat), s.WindowsDistinct → step s = .next t →
    (∀ addr bits v d rest, s.inputs = .write addr bits v d :: rest → addr / 64 ≠ w) →
    (∀ rest, s.inputs ≠ .reset w :: rest) →
    t.engineAt w = s.engineAt w

/-- 10_state.md R42: what changes ACC0 or ACC1 of an instance: reset, or a CMD write of one of the commands INIT32,
INIT16, FEED8, FEED16, FINAL, CSUM32, CSUM16; the host cannot write them. -/
def Obligations.AccumulatorsChangeOnlyByTheirCommands : Prop :=
  ∀ (s t : State) (w : Nat) (e e' : Engine), s.WindowsDistinct → step s = .next t →
    s.engineAt w = some e → t.engineAt w = some e' → (e'.acc0 ≠ e.acc0 ∨ e'.acc1 ≠ e.acc1) →
    (∃ rest, s.inputs = .reset w :: rest) ∨
    ∃ addr v d rest, s.inputs = .write addr 32 v d :: rest ∧ addr / 64 = w ∧
      (d.resetAfter ≠ none ∨
        (addr = 64 * w ∧ ∃ i, decode v = .ok i ∧ i ≠ .nop ∧ i ≠ .clrerr))

/-- 10_state.md R30, R31: what changes BASE or LEN of an instance: reset, or a host write of that register, which
stores the whole value; no command writes them. -/
def Obligations.BaseAndLenChangeOnlyByHostWrites : Prop :=
  ∀ (s t : State) (w : Nat) (e e' : Engine), s.WindowsDistinct → step s = .next t →
    s.engineAt w = some e → t.engineAt w = some e' → (e'.base ≠ e.base ∨ e'.len ≠ e.len) →
    (∃ rest, s.inputs = .reset w :: rest) ∨
    ∃ addr v d rest, s.inputs = .write addr 32 v d :: rest ∧ addr / 64 = w ∧
      (d.resetAfter ≠ none ∨
        (addr = 64 * w + 0x20 ∧ e'.base = v ∧ e'.len = e.len) ∨
        (addr = 64 * w + 0x24 ∧ e'.len = v ∧ e'.base = e.base))

/-! ### The host interface -/

/-- 10_state.md R23: the bits of STATUS, the reserved bits reading zero. -/
def Obligations.StatusFieldsStandInTheirPlaces : Prop :=
  ∀ e : Engine,
    e.status.toNat =
      (match e.mode with | .idle => 0 | .f32 => 1 | .f16 => 2) + 4 * e.pend.toNat + 8 * e.isDone.toNat +
      16 * e.err.toNat +
      256 * (match e.errcode with | .none => 0 | .illegal => 1 | .sequence => 2 | .memfault => 3 | .range => 4)

/-- 10_state.md R36, R32, R22, R43: at the window of any instance, addressed last or not, a host read returns the
register of its offset and changes nothing else; a host write stores BASE or LEN, executes a command at CMD, and has no
effect at any other offset. `s1` is the same machine with that instance addressed. -/
def Obligations.WindowReadsAndWrites : Prop :=
  ∀ (s s1 : State) (rest : List Input) (k off : Nat) (v : Word), off % 4 = 0 → off < 64 →
    State.select { s with inputs := rest } k = some s1 →
    (s.inputs = .read (64 * k + off) 32 :: rest →
      step s = .next { s1 with
        responses :=
          (if off = 0x04 then s1.eng.status else if off = 0x08 then s1.eng.acc0 else if off = 0x0C then s1.eng.acc1
            else if off = 0x10 then BitVec.ofNat 32 s1.eng.blkcnt.toNat
            else if off = 0x14 then BitVec.ofNat 32 s1.eng.pendb.toNat
            else if off = 0x18 then s1.eng.count else if off = 0x1C then s1.eng.result
            else if off = 0x20 then s1.eng.base else if off = 0x24 then s1.eng.len else 0) :: s.responses }) ∧
    (s.inputs = .write (64 * k + off) 32 v During.quiet :: rest →
      (off = 0x20 → step s = .next { s1 with race := [], eng := { s1.eng with base := v } }) ∧
      (off = 0x24 → step s = .next { s1 with race := [], eng := { s1.eng with len := v } }) ∧
      (off ≠ 0 → off ≠ 0x20 → off ≠ 0x24 → step s = .next { s1 with race := [] }) ∧
      (off = 0 → s.plat.busTimeout = none → step s = execute v { s1 with race := [] }))

/-- 10_state.md R37: an access to a window that is not 32 bits wide or not at a multiple of 4 is refused. -/
def Obligations.OtherAccessesAreRefused : Prop :=
  ∀ (s : State) (rest : List Input) (addr bits : Nat) (v : Word) (d : During),
    addr / 64 ∈ s.windows → (bits ≠ 32 ∨ addr % 4 ≠ 0) →
    (s.inputs = .read addr bits :: rest ∨ s.inputs = .write addr bits v d :: rest) →
    step s = .refused (.hostAccess addr bits)

/-- 70_reset_and_hazards.md R135: the reset input of any instance zeroes every register of it and changes no memory;
reset during a write to any offset of its window leaves the reset registers too. A command then has made only a first
part of its reads, and the stores that other agents made meanwhile stand in memory as without the reset. When the reset
comes, in bytes read, is an input of the run; what is left of draws and of the mark, the form of racing stores and the
unit of the timeout are the model's choices too (logs 7, 8, 9). -/
def Obligations.ResetInputResetsTheInstance : Prop :=
  ∀ (s s1 : State) (rest : List Input) (k : Nat), State.select { s with inputs := rest } k = some s1 →
    (s.inputs = .reset k :: rest → step s = .next { s1 with eng := State.reset.eng }) ∧
    (∀ (w : Word) (stores : List Store) (n : Nat),
      (s.inputs = .write (64 * k) 32 w ⟨stores, some n⟩ :: rest →
        ∃ u, execute w { s1 with race := stores } = .next u ∧
          step s =
            if s.plat.timesOut (min n (s1.byteSteps u)) then .fault .busTimeout
            else .next { s1 with
              race := [], eng := State.reset.eng, mem := s1.mem.writeAll stores,
              portReads := s1.readLog (min n (s1.byteSteps u)) ++ s1.portReads, draws := u.draws,
              boundsBroken := if n < s1.byteSteps u then s1.boundsBroken else u.boundsBroken }) ∧
      (∀ off, off % 4 = 0 → off < 64 → off ≠ 0 →
        s.inputs = .write (64 * k + off) 32 w ⟨stores, some n⟩ :: rest →
        step s = .next { s1 with race := [], eng := State.reset.eng, mem := s1.mem.writeAll stores }))

/-- 20_memory.md R60: a store that is visible before the CMD write is what the port reads, and changes no other byte
and no engine. -/
def Obligations.VisibleStoresAreRead : Prop :=
  ∀ (s : State) (rest : List Input) (st : Store), s.mem.wf = true → s.inputs = .store st :: rest →
    ∃ t, step s = .next t ∧ t.mem.read st.addr.toNat = st.data ∧
      (∀ a, a ≠ st.addr.toNat → t.mem.read a = s.mem.read a) ∧
      t = { s with inputs := rest, mem := t.mem }

/-- 93_implementation_defined.md section 2, BUS_TIMEOUT: with a limit, a CSUM over a readable range that takes more byte
steps than the limit is a fault of the platform, any other completes. That the limit counts byte steps is the model's
choice (log 9). -/
def Obligations.BusTimeoutStopsOnlyLongerAccesses : Prop :=
  ∀ (s : State) (rest : List Input) (limit : Nat) (w : Word),
    s.inputs = .write (64 * s.window) 32 w During.quiet :: rest → (w = 0x60000000 ∨ w = 0x70000000) →
    s.plat.busTimeout = some limit → s.rangeFits → s.rangeReadable →
    (limit < s.eng.len.toNat → step s = .fault .busTimeout) ∧
    (s.eng.len.toNat ≤ limit → ∃ t, step s = .next t ∧ t.eng.isDone = true)

/-- 30_encoding.md R74 with 42_stream_commands.md R110, through the assembler, the bus and the step: the program
`STREAM32 b0, ..., b(n-1)` then `RD RESULT`, run from any state that has no other input, is a safe run if the state is
unmarked, and reads fletcher32 of the bytes; likewise `STREAM16`. The list of inputs (log 4), the mark that a safe run
excludes (log 6) and lines as trees (log 14) are the model's choices. -/
def Obligations.AssembledStreamsReadTheirChecksum : Prop :=
  ∀ (s : State) (bs : List Byte), s.boundsBroken = false →
    (∃ p r, assemble s.window (.stream32 (bs.map BitVec.toNat)) = some p ∧
      assemble s.window (.rd .result) = some r ∧
      SafeRun (p ++ r).length { s with inputs := p ++ r } ∧
      ∃ t, runSteps (p ++ r).length { s with inputs := p ++ r } = .next t ∧
        t.responses = fletcher32 bs :: s.responses) ∧
    (∃ p r, assemble s.window (.stream16 (bs.map BitVec.toNat)) = some p ∧
      assemble s.window (.rd .result) = some r ∧
      SafeRun (p ++ r).length { s with inputs := p ++ r } ∧
      ∃ t, runSteps (p ++ r).length { s with inputs := p ++ r } = .next t ∧
        t.responses = (fletcher16 bs).setWidth 32 :: s.responses)

/-- 10_state.md R43, R132: addressing the instance of a window finds it wherever it stands, changes the registers of no
instance, and nothing else but which instance stands in `eng` (the representation is the model's own, log 2). -/
def Obligations.AddressingFindsTheInstance : Prop :=
  ∀ (s : State) (k : Nat), s.WindowsDistinct →
    (k ∈ s.windows → ∃ s1, s.select k = some s1 ∧ s1.window = k ∧ s.engineAt k = some s1.eng ∧
      (∀ w, s1.engineAt w = s.engineAt w) ∧
      s1 = { s with eng := s1.eng, window := k, others := s1.others }) ∧
    (k ∉ s.windows → s.select k = none ∧ s.engineAt k = none)
end

