-- ==== Sys2Proof/Laws/Decode.lean ====
section
/-! SUPPORT. The decoder format by format: when each format accepts a word and what it yields. -/

namespace Sys2Proof

theorem decodeZ_eq_ok {w : Word} {i j : Instr} : decodeZ w i = .ok j ↔ w.extractLsb' 0 28 = 0 ∧ i = j := by
  unfold decodeZ; split <;> simp_all

theorem decodeB_eq_ok {w : Word} {f : Byte → Instr} {j : Instr} :
    decodeB w f = .ok j ↔ w.extractLsb' 8 20 = 0 ∧ f (w.extractLsb' 0 8) = j := by
  unfold decodeB; split <;> simp_all

theorem decodeH_eq_ok {w : Word} {f : Half → Instr} {j : Instr} :
    decodeH w f = .ok j ↔ w.extractLsb' 16 12 = 0 ∧ f (w.extractLsb' 0 16) = j := by
  unfold decodeH; split <;> simp_all

/-- The opcode field as a number (30_encoding.md R66). -/
theorem opField_toNat (w : Word) : (opField w).toNat = w.toNat / 2 ^ 28 := by
  have := w.isLt
  simp only [opField, BitVec.extractLsb'_toNat, Nat.shiftRight_eq_div_pow]
  omega

theorem low28_eq_zero {w : Word} : w.extractLsb' 0 28 = 0 ↔ w.toNat % 2 ^ 28 = 0 := by
  rw [← BitVec.toNat_inj]; simp [BitVec.extractLsb'_toNat]

theorem mid20_eq_zero {w : Word} : w.extractLsb' 8 20 = 0 ↔ w.toNat % 2 ^ 28 / 2 ^ 8 = 0 := by
  have := w.isLt
  rw [← BitVec.toNat_inj]
  simp only [BitVec.extractLsb'_toNat, Nat.shiftRight_eq_div_pow]
  change w.toNat / 2 ^ 8 % 2 ^ 20 = 0 ↔ _
  omega

theorem mid12_eq_zero {w : Word} : w.extractLsb' 16 12 = 0 ↔ w.toNat % 2 ^ 28 / 2 ^ 16 = 0 := by
  have := w.isLt
  rw [← BitVec.toNat_inj]
  simp only [BitVec.extractLsb'_toNat, Nat.shiftRight_eq_div_pow]
  change w.toNat / 2 ^ 16 % 2 ^ 12 = 0 ↔ _
  omega

end Sys2Proof
end

