-- ==== Sys2Proof/Laws/Memory.lean ====
section
/-! SUPPORT. The laws of buffer memory: every operation keeps the canonical form, a read after a write gives the byte
written, and a write leaves every other address alone. -/

namespace Sys2Proof.Machine

theorem Memory.wfFrom_cons {lo a : Nat} {b : Byte} {m : Memory} :
    Memory.wfFrom lo ((a, b) :: m) = true ↔
      lo ≤ a ∧ a < Config.addressSpace ∧ b ≠ Memory.unlisted ∧ Memory.wfFrom (a + 1) m = true := by
  simp only [Memory.wfFrom, Bool.and_eq_true, decide_eq_true_eq, and_assoc]

theorem Memory.wfFrom_mono {lo lo' : Nat} {m : Memory} (h : lo' ≤ lo) (hm : Memory.wfFrom lo m = true) :
    Memory.wfFrom lo' m = true := by
  cases m with
  | nil => rfl
  | cons c m =>
    obtain ⟨a, b⟩ := c
    rw [Memory.wfFrom_cons] at hm ⊢
    exact ⟨h.trans hm.1, hm.2⟩

/-- Below the first address of a canonical memory every byte is the unlisted one. -/
theorem Memory.read_below {lo a : Nat} {m : Memory} (hm : Memory.wfFrom lo m = true) (h : a < lo) :
    m.read a = Memory.unlisted := by
  induction m generalizing lo with
  | nil => rfl
  | cons c m ih =>
    obtain ⟨a', b'⟩ := c
    rw [Memory.wfFrom_cons] at hm
    have : a' ≠ a := by omega
    simp only [Memory.read, this, if_false]
    exact ih hm.2.2.2 (by omega)

theorem Memory.wfFrom_write {lo a : Nat} {b : Byte} {m : Memory} (hm : Memory.wfFrom lo m = true) (hlo : lo ≤ a)
    (ha : a < Config.addressSpace) : Memory.wfFrom lo (m.write a b) = true := by
  induction m generalizing lo with
  | nil =>
    unfold Memory.write
    split
    · rfl
    · exact Memory.wfFrom_cons.2 ⟨hlo, ha, ‹_›, rfl⟩
  | cons c m ih =>
    obtain ⟨a', b'⟩ := c
    have hc := Memory.wfFrom_cons.1 hm
    unfold Memory.write
    split
    · rename_i hlt
      split
      · exact hm
      · exact Memory.wfFrom_cons.2 ⟨hlo, ha, ‹_›, Memory.wfFrom_cons.2 ⟨hlt, hc.2⟩⟩
    · split
      · rename_i heq
        subst heq
        split
        · exact Memory.wfFrom_mono (by omega) hc.2.2.2
        · exact Memory.wfFrom_cons.2 ⟨hlo, ha, ‹_›, hc.2.2.2⟩
      · exact Memory.wfFrom_cons.2 ⟨hc.1, hc.2.1, hc.2.2.1, ih hc.2.2.2 (by omega)⟩

/-- A store keeps the canonical form. -/
theorem Memory.wf_write {m : Memory} {a : Nat} {b : Byte} (hm : m.wf = true) (ha : a < Config.addressSpace) :
    (m.write a b).wf = true :=
  Memory.wfFrom_write hm (Nat.zero_le a) ha

/-- Stores of other agents keep the canonical form: their addresses are 32-bit. -/
theorem Memory.wf_writeAll {m : Memory} (stores : List Store) (hm : m.wf = true) : (m.writeAll stores).wf = true := by
  unfold Memory.writeAll
  induction stores generalizing m with
  | nil => exact hm
  | cons st stores ih => exact ih (Memory.wf_write hm st.addr.isLt)

theorem Memory.wf_nil : Memory.wf [] = true := rfl

@[simp] theorem Memory.writeAll_nil (m : Memory) : m.writeAll [] = m := rfl

/-- A write leaves every other address alone, in any memory. -/
theorem Memory.read_write_other {m : Memory} {a a' : Nat} {b : Byte} (h : a' ≠ a) :
    (m.write a b).read a' = m.read a' := by
  induction m with
  | nil =>
    unfold Memory.write
    split <;> simp [Memory.read, h.symm]
  | cons c m ih =>
    obtain ⟨a1, b1⟩ := c
    unfold Memory.write
    split
    · split <;> simp [Memory.read, h.symm]
    · split
      · rename_i heq
        subst heq
        split <;> simp [Memory.read, h.symm]
      · simp only [Memory.read, ih]

/-- A read after a write to the same address gives the byte written, in a canonical memory. -/
theorem Memory.read_write_same {lo a : Nat} {b : Byte} {m : Memory} (hm : Memory.wfFrom lo m = true) :
    (m.write a b).read a = b := by
  induction m generalizing lo with
  | nil =>
    unfold Memory.write
    split
    · rename_i hb
      rw [hb]; rfl
    · simp [Memory.read]
  | cons c m ih =>
    obtain ⟨a1, b1⟩ := c
    have hc := Memory.wfFrom_cons.1 hm
    unfold Memory.write
    split
    · rename_i hlt
      split
      · rename_i hb
        have hne : a1 ≠ a := by omega
        simp only [Memory.read, hne, if_false, hb]
        exact Memory.read_below hc.2.2.2 (by omega)
      · simp [Memory.read]
    · split
      · rename_i heq
        subst heq
        split
        · rename_i hb
          rw [hb]
          exact Memory.read_below hc.2.2.2 (by omega)
        · simp [Memory.read]
      · rename_i hne
        have : a1 ≠ a := fun h => hne h.symm
        simp only [Memory.read, this, if_false]
        exact ih hc.2.2.2

end Sys2Proof.Machine
end

