-- ==== Sys2Proof/Laws/State.lean ====
section
/-! SUPPORT. One lemma per field per update, true by rfl: what each named update of an EngineState or of the State leaves
in each field. Later proofs rewrite with these and unfold no record update. -/

namespace Sys2Proof.Machine

/-! ### Engine.start -/

@[simp] theorem Engine.start_mode (e : Engine) (m : Mode) : (e.start m).mode = m := rfl
@[simp] theorem Engine.start_acc0 (e : Engine) (m : Mode) : (e.start m).acc0 = 0 := rfl
@[simp] theorem Engine.start_acc1 (e : Engine) (m : Mode) : (e.start m).acc1 = 0 := rfl
@[simp] theorem Engine.start_blkcnt (e : Engine) (m : Mode) : (e.start m).blkcnt = 0 := rfl
@[simp] theorem Engine.start_pend (e : Engine) (m : Mode) : (e.start m).pend = false := rfl
@[simp] theorem Engine.start_pendb (e : Engine) (m : Mode) : (e.start m).pendb = 0 := rfl
@[simp] theorem Engine.start_count (e : Engine) (m : Mode) : (e.start m).count = 0 := rfl
@[simp] theorem Engine.start_result (e : Engine) (m : Mode) : (e.start m).result = e.result := rfl
@[simp] theorem Engine.start_base (e : Engine) (m : Mode) : (e.start m).base = e.base := rfl
@[simp] theorem Engine.start_len (e : Engine) (m : Mode) : (e.start m).len = e.len := rfl
@[simp] theorem Engine.start_isDone (e : Engine) (m : Mode) : (e.start m).isDone = false := rfl
@[simp] theorem Engine.start_err (e : Engine) (m : Mode) : (e.start m).err = e.err := rfl
@[simp] theorem Engine.start_errcode (e : Engine) (m : Mode) : (e.start m).errcode = e.errcode := rfl

/-! ### Engine.reduce -/

@[simp] theorem Engine.reduce_mode (e : Engine) : (e.reduce).mode = e.mode := rfl
@[simp] theorem Engine.reduce_acc0 (e : Engine) : (e.reduce).acc0 = rem32 e.acc0 := rfl
@[simp] theorem Engine.reduce_acc1 (e : Engine) : (e.reduce).acc1 = rem32 e.acc1 := rfl
@[simp] theorem Engine.reduce_blkcnt (e : Engine) : (e.reduce).blkcnt = 0 := rfl
@[simp] theorem Engine.reduce_pend (e : Engine) : (e.reduce).pend = e.pend := rfl
@[simp] theorem Engine.reduce_pendb (e : Engine) : (e.reduce).pendb = e.pendb := rfl
@[simp] theorem Engine.reduce_count (e : Engine) : (e.reduce).count = e.count := rfl
@[simp] theorem Engine.reduce_result (e : Engine) : (e.reduce).result = e.result := rfl
@[simp] theorem Engine.reduce_base (e : Engine) : (e.reduce).base = e.base := rfl
@[simp] theorem Engine.reduce_len (e : Engine) : (e.reduce).len = e.len := rfl
@[simp] theorem Engine.reduce_isDone (e : Engine) : (e.reduce).isDone = e.isDone := rfl
@[simp] theorem Engine.reduce_err (e : Engine) : (e.reduce).err = e.err := rfl
@[simp] theorem Engine.reduce_errcode (e : Engine) : (e.reduce).errcode = e.errcode := rfl

/-! ### Engine.addWord -/

@[simp] theorem Engine.addWord_mode (e : Engine) (w : Half) : (e.addWord w).mode = e.mode := rfl
@[simp] theorem Engine.addWord_acc0 (e : Engine) (w : Half) : (e.addWord w).acc0 = e.acc0 + zext32 w := rfl
@[simp] theorem Engine.addWord_acc1 (e : Engine) (w : Half) : (e.addWord w).acc1 = e.acc1 + (e.acc0 + zext32 w) := rfl
@[simp] theorem Engine.addWord_blkcnt (e : Engine) (w : Half) : (e.addWord w).blkcnt = e.blkcnt + 1 := rfl
@[simp] theorem Engine.addWord_pend (e : Engine) (w : Half) : (e.addWord w).pend = e.pend := rfl
@[simp] theorem Engine.addWord_pendb (e : Engine) (w : Half) : (e.addWord w).pendb = e.pendb := rfl
@[simp] theorem Engine.addWord_count (e : Engine) (w : Half) : (e.addWord w).count = e.count := rfl
@[simp] theorem Engine.addWord_result (e : Engine) (w : Half) : (e.addWord w).result = e.result := rfl
@[simp] theorem Engine.addWord_base (e : Engine) (w : Half) : (e.addWord w).base = e.base := rfl
@[simp] theorem Engine.addWord_len (e : Engine) (w : Half) : (e.addWord w).len = e.len := rfl
@[simp] theorem Engine.addWord_isDone (e : Engine) (w : Half) : (e.addWord w).isDone = e.isDone := rfl
@[simp] theorem Engine.addWord_err (e : Engine) (w : Half) : (e.addWord w).err = e.err := rfl
@[simp] theorem Engine.addWord_errcode (e : Engine) (w : Half) : (e.addWord w).errcode = e.errcode := rfl

/-! ### Engine.step16 -/

@[simp] theorem Engine.step16_mode (e : Engine) (b : Byte) : (e.step16 b).mode = e.mode := rfl
@[simp] theorem Engine.step16_acc0 (e : Engine) (b : Byte) : (e.step16 b).acc0 = addRem16 e.acc0 b.toNat := rfl
@[simp] theorem Engine.step16_acc1 (e : Engine) (b : Byte) : (e.step16 b).acc1 = addRem16 e.acc1 (addRem16 e.acc0 b.toNat).toNat := rfl
@[simp] theorem Engine.step16_blkcnt (e : Engine) (b : Byte) : (e.step16 b).blkcnt = e.blkcnt := rfl
@[simp] theorem Engine.step16_pend (e : Engine) (b : Byte) : (e.step16 b).pend = e.pend := rfl
@[simp] theorem Engine.step16_pendb (e : Engine) (b : Byte) : (e.step16 b).pendb = e.pendb := rfl
@[simp] theorem Engine.step16_count (e : Engine) (b : Byte) : (e.step16 b).count = e.count := rfl
@[simp] theorem Engine.step16_result (e : Engine) (b : Byte) : (e.step16 b).result = e.result := rfl
@[simp] theorem Engine.step16_base (e : Engine) (b : Byte) : (e.step16 b).base = e.base := rfl
@[simp] theorem Engine.step16_len (e : Engine) (b : Byte) : (e.step16 b).len = e.len := rfl
@[simp] theorem Engine.step16_isDone (e : Engine) (b : Byte) : (e.step16 b).isDone = e.isDone := rfl
@[simp] theorem Engine.step16_err (e : Engine) (b : Byte) : (e.step16 b).err = e.err := rfl
@[simp] theorem Engine.step16_errcode (e : Engine) (b : Byte) : (e.step16 b).errcode = e.errcode := rfl

/-! ### Engine.close -/

@[simp] theorem Engine.close_mode (e : Engine) (r : Word) : (e.close r).mode = .idle := rfl
@[simp] theorem Engine.close_acc0 (e : Engine) (r : Word) : (e.close r).acc0 = e.acc0 := rfl
@[simp] theorem Engine.close_acc1 (e : Engine) (r : Word) : (e.close r).acc1 = e.acc1 := rfl
@[simp] theorem Engine.close_blkcnt (e : Engine) (r : Word) : (e.close r).blkcnt = e.blkcnt := rfl
@[simp] theorem Engine.close_pend (e : Engine) (r : Word) : (e.close r).pend = e.pend := rfl
@[simp] theorem Engine.close_pendb (e : Engine) (r : Word) : (e.close r).pendb = e.pendb := rfl
@[simp] theorem Engine.close_count (e : Engine) (r : Word) : (e.close r).count = e.count := rfl
@[simp] theorem Engine.close_result (e : Engine) (r : Word) : (e.close r).result = r := rfl
@[simp] theorem Engine.close_base (e : Engine) (r : Word) : (e.close r).base = e.base := rfl
@[simp] theorem Engine.close_len (e : Engine) (r : Word) : (e.close r).len = e.len := rfl
@[simp] theorem Engine.close_isDone (e : Engine) (r : Word) : (e.close r).isDone = true := rfl
@[simp] theorem Engine.close_err (e : Engine) (r : Word) : (e.close r).err = e.err := rfl
@[simp] theorem Engine.close_errcode (e : Engine) (r : Word) : (e.close r).errcode = e.errcode := rfl

/-! ### Engine.raise -/

@[simp] theorem Engine.raise_mode (e : Engine) (c : ErrCode) : (e.raise c).mode = e.mode := rfl
@[simp] theorem Engine.raise_acc0 (e : Engine) (c : ErrCode) : (e.raise c).acc0 = e.acc0 := rfl
@[simp] theorem Engine.raise_acc1 (e : Engine) (c : ErrCode) : (e.raise c).acc1 = e.acc1 := rfl
@[simp] theorem Engine.raise_blkcnt (e : Engine) (c : ErrCode) : (e.raise c).blkcnt = e.blkcnt := rfl
@[simp] theorem Engine.raise_pend (e : Engine) (c : ErrCode) : (e.raise c).pend = e.pend := rfl
@[simp] theorem Engine.raise_pendb (e : Engine) (c : ErrCode) : (e.raise c).pendb = e.pendb := rfl
@[simp] theorem Engine.raise_count (e : Engine) (c : ErrCode) : (e.raise c).count = e.count := rfl
@[simp] theorem Engine.raise_result (e : Engine) (c : ErrCode) : (e.raise c).result = e.result := rfl
@[simp] theorem Engine.raise_base (e : Engine) (c : ErrCode) : (e.raise c).base = e.base := rfl
@[simp] theorem Engine.raise_len (e : Engine) (c : ErrCode) : (e.raise c).len = e.len := rfl
@[simp] theorem Engine.raise_isDone (e : Engine) (c : ErrCode) : (e.raise c).isDone = e.isDone := rfl
@[simp] theorem Engine.raise_err (e : Engine) (c : ErrCode) : (e.raise c).err = true := rfl
@[simp] theorem Engine.raise_errcode (e : Engine) (c : ErrCode) : (e.raise c).errcode = if e.err then e.errcode else c := rfl

/-! ### Engine.clearError -/

@[simp] theorem Engine.clearError_mode (e : Engine) : (e.clearError).mode = e.mode := rfl
@[simp] theorem Engine.clearError_acc0 (e : Engine) : (e.clearError).acc0 = e.acc0 := rfl
@[simp] theorem Engine.clearError_acc1 (e : Engine) : (e.clearError).acc1 = e.acc1 := rfl
@[simp] theorem Engine.clearError_blkcnt (e : Engine) : (e.clearError).blkcnt = e.blkcnt := rfl
@[simp] theorem Engine.clearError_pend (e : Engine) : (e.clearError).pend = e.pend := rfl
@[simp] theorem Engine.clearError_pendb (e : Engine) : (e.clearError).pendb = e.pendb := rfl
@[simp] theorem Engine.clearError_count (e : Engine) : (e.clearError).count = e.count := rfl
@[simp] theorem Engine.clearError_result (e : Engine) : (e.clearError).result = e.result := rfl
@[simp] theorem Engine.clearError_base (e : Engine) : (e.clearError).base = e.base := rfl
@[simp] theorem Engine.clearError_len (e : Engine) : (e.clearError).len = e.len := rfl
@[simp] theorem Engine.clearError_isDone (e : Engine) : (e.clearError).isDone = e.isDone := rfl
@[simp] theorem Engine.clearError_err (e : Engine) : (e.clearError).err = false := rfl
@[simp] theorem Engine.clearError_errcode (e : Engine) : (e.clearError).errcode = .none := rfl

/-! ### State.withEngine -/

@[simp] theorem State.withEngine_eng (s : State) (e : Engine) : (s.withEngine e).eng = e := rfl
@[simp] theorem State.withEngine_window (s : State) (e : Engine) : (s.withEngine e).window = s.window := rfl
@[simp] theorem State.withEngine_others (s : State) (e : Engine) : (s.withEngine e).others = s.others := rfl
@[simp] theorem State.withEngine_mem (s : State) (e : Engine) : (s.withEngine e).mem = s.mem := rfl
@[simp] theorem State.withEngine_plat (s : State) (e : Engine) : (s.withEngine e).plat = s.plat := rfl
@[simp] theorem State.withEngine_inputs (s : State) (e : Engine) : (s.withEngine e).inputs = s.inputs := rfl
@[simp] theorem State.withEngine_responses (s : State) (e : Engine) : (s.withEngine e).responses = s.responses := rfl
@[simp] theorem State.withEngine_portReads (s : State) (e : Engine) : (s.withEngine e).portReads = s.portReads := rfl
@[simp] theorem State.withEngine_race (s : State) (e : Engine) : (s.withEngine e).race = s.race := rfl
@[simp] theorem State.withEngine_draws (s : State) (e : Engine) : (s.withEngine e).draws = s.draws := rfl
@[simp] theorem State.withEngine_boundsBroken (s : State) (e : Engine) : (s.withEngine e).boundsBroken = s.boundsBroken := rfl

/-! ### State.raise -/

@[simp] theorem State.raise_eng (s : State) (c : ErrCode) : (s.raise c).eng = s.eng.raise c := rfl
@[simp] theorem State.raise_window (s : State) (c : ErrCode) : (s.raise c).window = s.window := rfl
@[simp] theorem State.raise_others (s : State) (c : ErrCode) : (s.raise c).others = s.others := rfl
@[simp] theorem State.raise_mem (s : State) (c : ErrCode) : (s.raise c).mem = s.mem := rfl
@[simp] theorem State.raise_plat (s : State) (c : ErrCode) : (s.raise c).plat = s.plat := rfl
@[simp] theorem State.raise_inputs (s : State) (c : ErrCode) : (s.raise c).inputs = s.inputs := rfl
@[simp] theorem State.raise_responses (s : State) (c : ErrCode) : (s.raise c).responses = s.responses := rfl
@[simp] theorem State.raise_portReads (s : State) (c : ErrCode) : (s.raise c).portReads = s.portReads := rfl
@[simp] theorem State.raise_race (s : State) (c : ErrCode) : (s.raise c).race = s.race := rfl
@[simp] theorem State.raise_draws (s : State) (c : ErrCode) : (s.raise c).draws = s.draws := rfl
@[simp] theorem State.raise_boundsBroken (s : State) (c : ErrCode) : (s.raise c).boundsBroken = s.boundsBroken := rfl

/-! ### State.afterRead -/

@[simp] theorem State.afterRead_eng (s : State) (a : Nat) : (s.afterRead a).eng = s.eng := rfl
@[simp] theorem State.afterRead_window (s : State) (a : Nat) : (s.afterRead a).window = s.window := rfl
@[simp] theorem State.afterRead_others (s : State) (a : Nat) : (s.afterRead a).others = s.others := rfl
@[simp] theorem State.afterRead_mem (s : State) (a : Nat) : (s.afterRead a).mem = s.mem := rfl
@[simp] theorem State.afterRead_plat (s : State) (a : Nat) : (s.afterRead a).plat = s.plat := rfl
@[simp] theorem State.afterRead_inputs (s : State) (a : Nat) : (s.afterRead a).inputs = s.inputs := rfl
@[simp] theorem State.afterRead_responses (s : State) (a : Nat) : (s.afterRead a).responses = s.responses := rfl
@[simp] theorem State.afterRead_portReads (s : State) (a : Nat) : (s.afterRead a).portReads = a :: s.portReads := rfl
@[simp] theorem State.afterRead_race (s : State) (a : Nat) : (s.afterRead a).race = s.race := rfl
@[simp] theorem State.afterRead_draws (s : State) (a : Nat) : (s.afterRead a).draws = if s.racing a then s.draws + 1 else s.draws := rfl
@[simp] theorem State.afterRead_boundsBroken (s : State) (a : Nat) : (s.afterRead a).boundsBroken = s.boundsBroken := rfl

/-! ### State.resetEngine -/

@[simp] theorem State.resetEngine_eng (s : State) : (s.resetEngine).eng = Engine.reset := rfl
@[simp] theorem State.resetEngine_window (s : State) : (s.resetEngine).window = s.window := rfl
@[simp] theorem State.resetEngine_others (s : State) : (s.resetEngine).others = s.others := rfl
@[simp] theorem State.resetEngine_mem (s : State) : (s.resetEngine).mem = s.mem := rfl
@[simp] theorem State.resetEngine_plat (s : State) : (s.resetEngine).plat = s.plat := rfl
@[simp] theorem State.resetEngine_inputs (s : State) : (s.resetEngine).inputs = s.inputs := rfl
@[simp] theorem State.resetEngine_responses (s : State) : (s.resetEngine).responses = s.responses := rfl
@[simp] theorem State.resetEngine_portReads (s : State) : (s.resetEngine).portReads = s.portReads := rfl
@[simp] theorem State.resetEngine_race (s : State) : (s.resetEngine).race = s.race := rfl
@[simp] theorem State.resetEngine_draws (s : State) : (s.resetEngine).draws = s.draws := rfl
@[simp] theorem State.resetEngine_boundsBroken (s : State) : (s.resetEngine).boundsBroken = s.boundsBroken := rfl

/-! ### State.memfault -/

@[simp] theorem State.memfault_window (s : State) : s.memfault.window = s.window := rfl
@[simp] theorem State.memfault_others (s : State) : s.memfault.others = s.others := rfl
@[simp] theorem State.memfault_mem (s : State) : s.memfault.mem = s.mem := rfl
@[simp] theorem State.memfault_plat (s : State) : s.memfault.plat = s.plat := rfl
@[simp] theorem State.memfault_inputs (s : State) : s.memfault.inputs = s.inputs := rfl
@[simp] theorem State.memfault_responses (s : State) : s.memfault.responses = s.responses := rfl
@[simp] theorem State.memfault_portReads (s : State) : s.memfault.portReads = s.portReads := rfl
@[simp] theorem State.memfault_race (s : State) : s.memfault.race = s.race := rfl
@[simp] theorem State.memfault_draws (s : State) : s.memfault.draws = s.draws + 3 := rfl
@[simp] theorem State.memfault_boundsBroken (s : State) : s.memfault.boundsBroken = true := rfl
@[simp] theorem State.memfault_eng_mode (s : State) : s.memfault.eng.mode = .idle := rfl
@[simp] theorem State.memfault_eng_acc0 (s : State) : s.memfault.eng.acc0 = Config.freeWord s.draws := rfl
@[simp] theorem State.memfault_eng_acc1 (s : State) : s.memfault.eng.acc1 = Config.freeWord (s.draws + 1) := rfl
@[simp] theorem State.memfault_eng_blkcnt (s : State) : s.memfault.eng.blkcnt = 0 := rfl
@[simp] theorem State.memfault_eng_pend (s : State) : s.memfault.eng.pend = false := rfl
@[simp] theorem State.memfault_eng_pendb (s : State) : s.memfault.eng.pendb = 0 := rfl
@[simp] theorem State.memfault_eng_count (s : State) : s.memfault.eng.count = Config.freeWord (s.draws + 2) := rfl
@[simp] theorem State.memfault_eng_result (s : State) : s.memfault.eng.result = s.eng.result := rfl
@[simp] theorem State.memfault_eng_base (s : State) : s.memfault.eng.base = s.eng.base := rfl
@[simp] theorem State.memfault_eng_len (s : State) : s.memfault.eng.len = s.eng.len := rfl
@[simp] theorem State.memfault_eng_isDone (s : State) : s.memfault.eng.isDone = s.eng.isDone := rfl
@[simp] theorem State.memfault_eng_err (s : State) : s.memfault.eng.err = true := rfl
@[simp] theorem State.memfault_eng_errcode (s : State) : s.memfault.eng.errcode = if s.eng.err then s.eng.errcode else .memfault := rfl

@[simp] theorem State.withEngine_withEngine (s : State) (e e' : Engine) :
    (s.withEngine e).withEngine e' = s.withEngine e' := rfl

@[simp] theorem State.withEngine_self (s : State) : s.withEngine s.eng = s := rfl

@[simp] theorem State.racing_withEngine (s : State) (e : Engine) (a : Nat) : (s.withEngine e).racing a = s.racing a := rfl

@[simp] theorem State.portByte_withEngine (s : State) (e : Engine) (a : Nat) :
    (s.withEngine e).portByte a = s.portByte a := rfl

@[simp] theorem State.afterRead_withEngine (s : State) (e : Engine) (a : Nat) :
    (s.withEngine e).afterRead a = (s.afterRead a).withEngine e := rfl

@[simp] theorem State.racing_afterRead (s : State) (a a' : Nat) : (s.afterRead a).racing a' = s.racing a' := rfl

end Sys2Proof.Machine
end

