-- ==== Sys2Proof/Laws/Ops.lean ====
section
/-! SUPPORT. What each shared operation can do, said once: the cases of the engine's procedures, what they leave alone,
and the byte loop of the buffer commands as a fold over the bytes the port delivers. -/

namespace Sys2Proof.Machine

/-! ### Values -/

@[simp] theorem rem32_toNat (x : Word) : (rem32 x).toNat = x.toNat % 65535 := by
  have : x.toNat % 65535 < 2 ^ 32 := lt_of_lt_of_le (Nat.mod_lt _ (by decide)) (by decide)
  simp only [rem32, Config.mod32, BitVec.toNat_ofNat, Nat.mod_eq_of_lt this]

@[simp] theorem addRem16_toNat (x : Word) (y : Nat) : (addRem16 x y).toNat = (x.toNat + y) % 255 := by
  have : (x.toNat + y) % 255 < 2 ^ 32 := lt_of_lt_of_le (Nat.mod_lt _ (by decide)) (by decide)
  simp only [addRem16, Config.mod16, BitVec.toNat_ofNat, Nat.mod_eq_of_lt this]

@[simp] theorem zext32_toNat (w : Half) : (zext32 w).toNat = w.toNat := by
  simp only [zext32, BitVec.toNat_setWidth]
  exact Nat.mod_eq_of_lt (lt_trans w.isLt (by decide))

/-- `(hi, lo)` is `hi * 256 + lo` (00_scope.md R11). -/
@[simp] theorem concatBytes_toNat (hi lo : Byte) : (concatBytes hi lo).toNat = lo.toNat + 256 * hi.toNat := by
  have := lo.isLt
  unfold concatBytes
  rw [BitVec.toNat_append, Nat.shiftLeft_eq, Nat.mul_comm, ← Nat.two_pow_add_eq_or_of_lt this]
  omega

/-! ### The word step -/

/-- A word step either ends a block, and reduces, or does not (42_stream_commands.md R105). -/
theorem Engine.wordstep_cases (e : Engine) (w : Half) :
    (e.blkcnt + 1 = 360 ∧ e.wordstep w = (e.addWord w).reduce) ∨ (e.blkcnt + 1 ≠ 360 ∧ e.wordstep w = e.addWord w) := by
  unfold Engine.wordstep
  split
  · exact .inl ⟨‹_›, rfl⟩
  · exact .inr ⟨‹_›, rfl⟩

theorem Engine.pair32_of_pend {e : Engine} (h : e.pend = true) (b : Byte) :
    e.pair32 b = Engine.wordstep { e with pend := false, pendb := 0 } (concatBytes b e.pendb) := by
  simp [Engine.pair32, h]

theorem Engine.pair32_of_not_pend {e : Engine} (h : e.pend = false) (b : Byte) :
    e.pair32 b = { e with pendb := b, pend := true } := by
  simp [Engine.pair32, h]

theorem Engine.feedbyte_f32 {e : Engine} (h : e.mode = .f32) (b : Byte) :
    e.feedbyte b = Engine.pair32 { e with count := e.count + 1 } b := by
  simp [Engine.feedbyte, h]

theorem Engine.feedbyte_other {e : Engine} (h : e.mode ≠ .f32) (b : Byte) :
    e.feedbyte b = Engine.step16 { e with count := e.count + 1 } b := by
  simp [Engine.feedbyte, h]

theorem Engine.flushPending_of_pend {e : Engine} (h : e.pend = true) :
    e.flushPending = Engine.wordstep { e with pend := false, pendb := 0 } (concatBytes 0 e.pendb) := by
  simp [Engine.flushPending, h]

theorem Engine.flushPending_of_not_pend {e : Engine} (h : e.pend = false) : e.flushPending = e := by
  simp [Engine.flushPending, h]

theorem Engine.finish_f32 {e : Engine} (h : e.mode = .f32) :
    e.finish = e.flushPending.reduce.close (pack32 e.flushPending.reduce.acc1 e.flushPending.reduce.acc0) := by
  simp [Engine.finish, h]

theorem Engine.finish_other {e : Engine} (h : e.mode ≠ .f32) : e.finish = e.close (pack16 e.acc1 e.acc0) := by
  simp [Engine.finish, h]

/-! ### What the procedures leave alone -/

@[simp] theorem Engine.wordstep_mode (e : Engine) (w : Half) : (e.wordstep w).mode = e.mode := by
  unfold Engine.wordstep; split <;> rfl
@[simp] theorem Engine.wordstep_pend (e : Engine) (w : Half) : (e.wordstep w).pend = e.pend := by
  unfold Engine.wordstep; split <;> rfl
@[simp] theorem Engine.wordstep_pendb (e : Engine) (w : Half) : (e.wordstep w).pendb = e.pendb := by
  unfold Engine.wordstep; split <;> rfl
@[simp] theorem Engine.wordstep_count (e : Engine) (w : Half) : (e.wordstep w).count = e.count := by
  unfold Engine.wordstep; split <;> rfl
@[simp] theorem Engine.wordstep_result (e : Engine) (w : Half) : (e.wordstep w).result = e.result := by
  unfold Engine.wordstep; split <;> rfl
@[simp] theorem Engine.wordstep_base (e : Engine) (w : Half) : (e.wordstep w).base = e.base := by
  unfold Engine.wordstep; split <;> rfl
@[simp] theorem Engine.wordstep_len (e : Engine) (w : Half) : (e.wordstep w).len = e.len := by
  unfold Engine.wordstep; split <;> rfl
@[simp] theorem Engine.wordstep_isDone (e : Engine) (w : Half) : (e.wordstep w).isDone = e.isDone := by
  unfold Engine.wordstep; split <;> rfl
@[simp] theorem Engine.wordstep_err (e : Engine) (w : Half) : (e.wordstep w).err = e.err := by
  unfold Engine.wordstep; split <;> rfl
@[simp] theorem Engine.wordstep_errcode (e : Engine) (w : Half) : (e.wordstep w).errcode = e.errcode := by
  unfold Engine.wordstep; split <;> rfl

@[simp] theorem Engine.pair32_mode (e : Engine) (b : Byte) : (e.pair32 b).mode = e.mode := by
  unfold Engine.pair32; split <;> simp
@[simp] theorem Engine.pair32_count (e : Engine) (b : Byte) : (e.pair32 b).count = e.count := by
  unfold Engine.pair32; split <;> simp
@[simp] theorem Engine.pair32_result (e : Engine) (b : Byte) : (e.pair32 b).result = e.result := by
  unfold Engine.pair32; split <;> simp
@[simp] theorem Engine.pair32_base (e : Engine) (b : Byte) : (e.pair32 b).base = e.base := by
  unfold Engine.pair32; split <;> simp
@[simp] theorem Engine.pair32_len (e : Engine) (b : Byte) : (e.pair32 b).len = e.len := by
  unfold Engine.pair32; split <;> simp
@[simp] theorem Engine.pair32_isDone (e : Engine) (b : Byte) : (e.pair32 b).isDone = e.isDone := by
  unfold Engine.pair32; split <;> simp
@[simp] theorem Engine.pair32_err (e : Engine) (b : Byte) : (e.pair32 b).err = e.err := by
  unfold Engine.pair32; split <;> simp
@[simp] theorem Engine.pair32_errcode (e : Engine) (b : Byte) : (e.pair32 b).errcode = e.errcode := by
  unfold Engine.pair32; split <;> simp

@[simp] theorem Engine.feedbyte_mode (e : Engine) (b : Byte) : (e.feedbyte b).mode = e.mode := by
  unfold Engine.feedbyte; split <;> simp
@[simp] theorem Engine.feedbyte_count (e : Engine) (b : Byte) : (e.feedbyte b).count = e.count + 1 := by
  unfold Engine.feedbyte; split <;> simp
@[simp] theorem Engine.feedbyte_result (e : Engine) (b : Byte) : (e.feedbyte b).result = e.result := by
  unfold Engine.feedbyte; split <;> simp
@[simp] theorem Engine.feedbyte_base (e : Engine) (b : Byte) : (e.feedbyte b).base = e.base := by
  unfold Engine.feedbyte; split <;> simp
@[simp] theorem Engine.feedbyte_len (e : Engine) (b : Byte) : (e.feedbyte b).len = e.len := by
  unfold Engine.feedbyte; split <;> simp
@[simp] theorem Engine.feedbyte_isDone (e : Engine) (b : Byte) : (e.feedbyte b).isDone = e.isDone := by
  unfold Engine.feedbyte; split <;> simp
@[simp] theorem Engine.feedbyte_err (e : Engine) (b : Byte) : (e.feedbyte b).err = e.err := by
  unfold Engine.feedbyte; split <;> simp
@[simp] theorem Engine.feedbyte_errcode (e : Engine) (b : Byte) : (e.feedbyte b).errcode = e.errcode := by
  unfold Engine.feedbyte; split <;> simp

@[simp] theorem Engine.flushPending_mode (e : Engine) : (e.flushPending).mode = e.mode := by
  unfold Engine.flushPending; split <;> simp
@[simp] theorem Engine.flushPending_count (e : Engine) : (e.flushPending).count = e.count := by
  unfold Engine.flushPending; split <;> simp
@[simp] theorem Engine.flushPending_result (e : Engine) : (e.flushPending).result = e.result := by
  unfold Engine.flushPending; split <;> simp
@[simp] theorem Engine.flushPending_base (e : Engine) : (e.flushPending).base = e.base := by
  unfold Engine.flushPending; split <;> simp
@[simp] theorem Engine.flushPending_len (e : Engine) : (e.flushPending).len = e.len := by
  unfold Engine.flushPending; split <;> simp
@[simp] theorem Engine.flushPending_isDone (e : Engine) : (e.flushPending).isDone = e.isDone := by
  unfold Engine.flushPending; split <;> simp
@[simp] theorem Engine.flushPending_err (e : Engine) : (e.flushPending).err = e.err := by
  unfold Engine.flushPending; split <;> simp
@[simp] theorem Engine.flushPending_errcode (e : Engine) : (e.flushPending).errcode = e.errcode := by
  unfold Engine.flushPending; split <;> simp

@[simp] theorem Engine.finish_mode (e : Engine) : (e.finish).mode = .idle := by
  unfold Engine.finish; split <;> simp
@[simp] theorem Engine.finish_count (e : Engine) : (e.finish).count = e.count := by
  unfold Engine.finish; split <;> simp
@[simp] theorem Engine.finish_base (e : Engine) : (e.finish).base = e.base := by
  unfold Engine.finish; split <;> simp
@[simp] theorem Engine.finish_len (e : Engine) : (e.finish).len = e.len := by
  unfold Engine.finish; split <;> simp
@[simp] theorem Engine.finish_isDone (e : Engine) : (e.finish).isDone = true := by
  unfold Engine.finish; split <;> simp
@[simp] theorem Engine.finish_err (e : Engine) : (e.finish).err = e.err := by
  unfold Engine.finish; split <;> simp
@[simp] theorem Engine.finish_errcode (e : Engine) : (e.finish).errcode = e.errcode := by
  unfold Engine.finish; split <;> simp

/-! ### The byte loop of CSUM32 and CSUM16 -/

/-- `n` reads from address `a` up, each byte fed to the engine. -/
def State.feedFrom : Nat → Nat → State → State
  | 0, _, s => s
  | n + 1, a, s => State.feedFrom n (a + 1) ((s.afterRead a).withEngine (s.eng.feedbyte (s.portByte a)))

/-- The bytes that `n` reads from address `a` up return. -/
def State.bytesFrom : Nat → Nat → State → List Byte
  | 0, _, _ => []
  | n + 1, a, s => s.portByte a :: State.bytesFrom n (a + 1) (s.afterRead a)

theorem State.bytesFrom_withEngine (n a : Nat) (s : State) (e : Engine) :
    State.bytesFrom n a (s.withEngine e) = State.bytesFrom n a s := by
  induction n generalizing a s with
  | zero => rfl
  | succ n ih => simp only [State.bytesFrom, State.portByte_withEngine, State.afterRead_withEngine, ih]

theorem State.bytesFrom_length (n a : Nat) (s : State) : (State.bytesFrom n a s).length = n := by
  induction n generalizing a s with
  | zero => rfl
  | succ n ih => simp only [State.bytesFrom, List.length_cons, ih]

/-- Where no other agent writes, the port delivers what memory holds. -/
theorem State.bytesFrom_quiet (n a : Nat) (s : State) (h : ∀ j < n, s.racing (a + j) = false) :
    State.bytesFrom n a s = (List.range n).map (fun j => s.mem.read (a + j)) := by
  induction n generalizing a s with
  | zero => rfl
  | succ n ih =>
    have h0 : s.racing a = false := h 0 (Nat.succ_pos n)
    rw [State.bytesFrom, ih (a + 1) (s.afterRead a) fun j hj => by
      rw [State.racing_afterRead, Nat.add_assoc, Nat.add_comm 1]; exact h (j + 1) (Nat.succ_lt_succ hj)]
    rw [List.range_succ_eq_map, List.map_cons, List.map_map]
    refine congrArg₂ List.cons (by simp [State.portByte, h0]) (List.map_congr_left fun j _ => ?_)
    simp only [State.afterRead_mem, Function.comp, Nat.succ_eq_add_one]
    congr 1; omega

/-- A byte that no other agent writes is what memory holds, whatever happens to the others. -/
theorem State.bytesFrom_getElem? (n a j : Nat) (s : State) (hj : j < n) (h : s.racing (a + j) = false) :
    (State.bytesFrom n a s)[j]? = some (s.mem.read (a + j)) := by
  induction n generalizing a j s with
  | zero => omega
  | succ n ih =>
    cases j with
    | zero =>
      have h0 : s.racing a = false := h
      simp [State.bytesFrom, State.portByte, h0]
    | succ j =>
      have e : a + 1 + j = a + (j + 1) := by omega
      rw [State.bytesFrom, List.getElem?_cons_succ, ih (a + 1) j (s.afterRead a) (by omega)
        (by rw [e, State.racing_afterRead]; exact h), e, State.afterRead_mem]

theorem countP_range_succ (p : Nat → Bool) (k : Nat) :
    (List.range (k + 1)).countP p = (if p 0 = true then 1 else 0) + (List.range k).countP (fun i => p (i + 1)) := by
  rw [List.range_succ_eq_map, List.countP_cons, List.countP_map, Nat.add_comm]; rfl

/-- A byte that another agent writes is a free byte, each with a draw of its own, in the order of the reads. -/
theorem State.bytesFrom_raced (n a j : Nat) (s : State) (hj : j < n) (h : s.racing (a + j) = true) :
    (State.bytesFrom n a s)[j]? =
      some (Config.freeByte (s.draws + (List.range j).countP (fun i => s.racing (a + i)))) := by
  induction n generalizing a j s with
  | zero => omega
  | succ n ih =>
    cases j with
    | zero =>
      have h0 : s.racing a = true := h
      simp [State.bytesFrom, State.portByte, h0]
    | succ j =>
      have e : ∀ i, a + 1 + i = a + (i + 1) := by intro i; omega
      rw [State.bytesFrom, List.getElem?_cons_succ, ih (a + 1) j (s.afterRead a) (by omega)
        (by rw [e, State.racing_afterRead]; exact h), countP_range_succ]
      simp only [State.racing_afterRead, State.afterRead_draws, e, Nat.add_zero]
      split <;> simp [Nat.add_assoc]

/-- Reading uses up one draw for each byte that another agent writes. -/
theorem State.feedFrom_draws (n a : Nat) (s : State) :
    (State.feedFrom n a s).draws = s.draws + (List.range n).countP (fun i => s.racing (a + i)) := by
  induction n generalizing a s with
  | zero => rfl
  | succ n ih =>
    have e : ∀ i, a + 1 + i = a + (i + 1) := by intro i; omega
    rw [State.feedFrom, ih, countP_range_succ]
    simp only [State.racing_withEngine, State.withEngine_draws, State.racing_afterRead, State.afterRead_draws, e,
      Nat.add_zero]
    split <;> simp [Nat.add_assoc]

/-- The engine after `n` reads has been fed the bytes they returned, in order. -/
theorem State.feedFrom_eng (n a : Nat) (s : State) :
    (State.feedFrom n a s).eng = (State.bytesFrom n a s).foldl Engine.feedbyte s.eng := by
  induction n generalizing a s with
  | zero => rfl
  | succ n ih =>
    rw [State.feedFrom, ih, State.bytesFrom_withEngine]; rfl

/-- Everything around the engine after `n` reads: the port has seen `a .. a+n-1`, each once, ascending, and draws may
have been used up. -/
theorem State.feedFrom_around (n a : Nat) (s : State) :
    State.feedFrom n a s = { s with
      eng := (State.feedFrom n a s).eng
      portReads := ((List.range n).map (fun j => a + j)).reverse ++ s.portReads
      draws := (State.feedFrom n a s).draws } := by
  induction n generalizing a s with
  | zero => rfl
  | succ n ih =>
    rw [State.feedFrom, ih, List.range_succ_eq_map, List.map_cons, List.map_map, List.reverse_cons, List.append_assoc]
    have : (fun j => a + 1 + j) = (fun j => a + j) ∘ Nat.succ := by funext j; simp only [Function.comp]; omega
    rw [this]; rfl

/-- Without racing stores no draw is used up. -/
theorem State.feedFrom_draws_quiet (n a : Nat) (s : State) (h : ∀ j < n, s.racing (a + j) = false) :
    (State.feedFrom n a s).draws = s.draws := by
  rw [State.feedFrom_draws, List.countP_eq_zero.2 (by simpa using h), Nat.add_zero]

/-- The loop over a readable range reads all of it and finishes (43_buffer_commands.md R111). -/
theorem State.csumLoop_readable (n a : Nat) (s : State) (h : ∀ j < n, s.plat.readable (a + j) = true) :
    State.csumLoop n a s = (State.feedFrom n a s).withEngine (State.feedFrom n a s).eng.finish := by
  induction n generalizing a s with
  | zero => rfl
  | succ n ih =>
    have h0 : s.plat.readable a = true := h 0 (Nat.succ_pos n)
    rw [State.csumLoop, if_pos h0, ih, State.feedFrom]
    intro j hj
    have := h (j + 1) (Nat.succ_lt_succ hj)
    rw [show a + 1 + j = a + (j + 1) by omega]; exact this

/-- The loop stops at the lowest address that is not Readable, before reading it (43_buffer_commands.md R115). -/
theorem State.csumLoop_unreadable (n a k : Nat) (s : State) (hk : k < n)
    (h : ∀ j < k, s.plat.readable (a + j) = true) (hbad : s.plat.readable (a + k) = false) :
    State.csumLoop n a s = (State.feedFrom k a s).memfault := by
  induction k generalizing n a s with
  | zero =>
    obtain ⟨n, rfl⟩ : ∃ m, n = m + 1 := ⟨n - 1, by omega⟩
    have h0 : s.plat.readable a = false := hbad
    rw [State.csumLoop, if_neg (by simp [h0])]; rfl
  | succ k ih =>
    obtain ⟨n, rfl⟩ : ∃ m, n = m + 1 := ⟨n - 1, by omega⟩
    have h0 : s.plat.readable a = true := h 0 (Nat.succ_pos k)
    rw [State.csumLoop, if_pos h0, ih n (a + 1) _ (by omega), State.feedFrom]
    · intro j hj
      have := h (j + 1) (Nat.succ_lt_succ hj)
      rw [show a + 1 + j = a + (j + 1) by omega]; exact this
    · rw [show a + 1 + k = a + (k + 1) by omega]; exact hbad

/-- A range is readable throughout, or has a lowest address that is not. -/
theorem readable_or_first_bad (p : Platform) (a n : Nat) :
    (∀ j < n, p.readable (a + j) = true) ∨
      ∃ k < n, (∀ j < k, p.readable (a + j) = true) ∧ p.readable (a + k) = false := by
  induction n with
  | zero => exact .inl fun j hj => absurd hj (Nat.not_lt_zero j)
  | succ n ih =>
    obtain h | ⟨k, hk, hgood, hbad⟩ := ih
    · cases hn : p.readable (a + n) with
      | true =>
        refine .inl fun j hj => ?_
        obtain hj' | rfl := Nat.lt_succ_iff_lt_or_eq.1 hj
        · exact h j hj'
        · exact hn
      | false => exact .inr ⟨n, Nat.lt_succ_self n, h, hn⟩
    · exact .inr ⟨k, Nat.lt_succ_of_lt hk, hgood, hbad⟩

/-- All that `csum(m)` can do (43_buffer_commands.md R111): RANGE, or the whole buffer and `finish`, or the bytes below
the lowest unreadable address and `memfault`. -/
theorem State.csum_cases (s : State) (m : Mode) :
    (Config.addressSpace < s.eng.base.toNat + s.eng.len.toNat ∧ s.csum m = s.raise .range) ∨
    (s.eng.base.toNat + s.eng.len.toNat ≤ Config.addressSpace ∧
      (∀ j < s.eng.len.toNat, s.plat.readable (s.eng.base.toNat + j) = true) ∧
      s.csum m =
        (State.feedFrom s.eng.len.toNat s.eng.base.toNat (s.withEngine (s.eng.start m))).withEngine
          (State.feedFrom s.eng.len.toNat s.eng.base.toNat (s.withEngine (s.eng.start m))).eng.finish) ∨
    (s.eng.base.toNat + s.eng.len.toNat ≤ Config.addressSpace ∧
      ∃ k < s.eng.len.toNat, (∀ j < k, s.plat.readable (s.eng.base.toNat + j) = true) ∧
        s.plat.readable (s.eng.base.toNat + k) = false ∧
        s.csum m = (State.feedFrom k s.eng.base.toNat (s.withEngine (s.eng.start m))).memfault) := by
  unfold State.csum
  split
  · exact .inl ⟨‹_›, rfl⟩
  · have hfit : s.eng.base.toNat + s.eng.len.toNat ≤ Config.addressSpace := Nat.le_of_not_lt ‹_›
    obtain h | ⟨k, hk, hgood, hbad⟩ := readable_or_first_bad s.plat s.eng.base.toNat s.eng.len.toNat
    · exact .inr (.inl ⟨hfit, h, State.csumLoop_readable _ _ _ h⟩)
    · exact .inr (.inr ⟨hfit, k, hk, hgood, hbad, State.csumLoop_unreadable _ _ k _ hk hgood hbad⟩)

end Sys2Proof.Machine
end

