-- ==== Sys2Proof/Laws/PerInstr.lean ====
section
/-! SUPPORT. Statements about commands as syntax, one lemma a constructor. Family `FitsItsRow`: a command is well formed,
and its encoding matches the row of the opcode map that carries its mnemonic (spec 30_encoding.md R66, R69). -/

namespace Sys2Proof.Laws.FitsItsRow

/-- The command is well formed and the word of its encoding matches its row: `w & mask = match`. -/
def Statement (i : Instr) : Prop :=
  i.wellFormed = true ∧ ∃ r ∈ opcodeMap, r.mnemonic = i.mnemonic ∧ encode i &&& r.mask = r.pattern

theorem nop : Statement .nop := by
  exact ⟨rfl, ⟨"NOP", 0x00000000, 0xFFFFFFFF⟩, by simp [opcodeMap], rfl, by decide⟩

theorem init32 : Statement .init32 := by
  exact ⟨rfl, ⟨"INIT32", 0x10000000, 0xFFFFFFFF⟩, by simp [opcodeMap], rfl, by decide⟩

theorem init16 : Statement .init16 := by
  exact ⟨rfl, ⟨"INIT16", 0x20000000, 0xFFFFFFFF⟩, by simp [opcodeMap], rfl, by decide⟩

theorem feed8 (imm8 : Byte) : Statement (.feed8 imm8) := by
  refine ⟨decide_eq_true imm8.isLt, ⟨"FEED8", 0x30000000, 0xFFFFFF00⟩, by simp [opcodeMap], rfl, ?_⟩
  revert imm8
  decide

theorem feed16 (imm16 : Half) : Statement (.feed16 imm16) := by
  refine ⟨decide_eq_true imm16.isLt, ⟨"FEED16", 0x40000000, 0xFFFF0000⟩, by simp [opcodeMap], rfl, ?_⟩
  apply BitVec.eq_of_getLsbD_eq
  intro j hj
  simp only [encode, BitVec.getLsbD_and, BitVec.getLsbD_append]
  by_cases h : j < 16
  · have : (0xFFFF0000 : Word).getLsbD j = false := by revert h; clear hj; revert j; decide
    have h2 : (0x40000000 : Word).getLsbD j = false := by revert h; clear hj this; revert j; decide
    rw [this, h2, Bool.and_false]
  · have : (0xFFFF0000 : Word).getLsbD j = true := by revert h; revert j; decide
    rw [this, Bool.and_true, if_neg h]
    revert h; clear this; revert j; decide

theorem final : Statement .final := by
  exact ⟨rfl, ⟨"FINAL", 0x50000000, 0xFFFFFFFF⟩, by simp [opcodeMap], rfl, by decide⟩

theorem csum32 : Statement .csum32 := by
  exact ⟨rfl, ⟨"CSUM32", 0x60000000, 0xFFFFFFFF⟩, by simp [opcodeMap], rfl, by decide⟩

theorem csum16 : Statement .csum16 := by
  exact ⟨rfl, ⟨"CSUM16", 0x70000000, 0xFFFFFFFF⟩, by simp [opcodeMap], rfl, by decide⟩

theorem clrerr : Statement .clrerr := by
  exact ⟨rfl, ⟨"CLRERR", 0x80000000, 0xFFFFFFFF⟩, by simp [opcodeMap], rfl, by decide⟩

end Sys2Proof.Laws.FitsItsRow
end

