-- ==== Sys2Proof/Laws/Step.lean ====
section
/-! SUPPORT. What addressing an instance, a bus access and a step can do, each said once. -/

namespace Sys2Proof.Machine

/-! ### Addressing an instance -/

@[simp] theorem State.select_window (s : State) : s.select s.window = some s := by simp [State.select]

theorem exchange_eq_some {w : Nat} {old : Instance} {is rest : List Instance} {e : Engine}
    (h : exchange w old is = some (e, rest)) :
    ∃ before after, is = before ++ ⟨w, e⟩ :: after ∧ rest = before ++ old :: after ∧ ∀ i ∈ before, i.window ≠ w := by
  induction is generalizing rest with
  | nil => simp [exchange] at h
  | cons i is ih =>
    unfold exchange at h
    split at h
    · rename_i hw
      obtain ⟨rfl, rfl⟩ := Prod.mk.inj (Option.some.inj h)
      subst hw
      exact ⟨[], is, rfl, rfl, by simp⟩
    · rename_i hw
      split at h
      · rename_i e' rest' heq
        obtain ⟨rfl, rfl⟩ := Prod.mk.inj (Option.some.inj h)
        obtain ⟨b, a, rfl, rfl, hb⟩ := ih heq
        exact ⟨i :: b, a, rfl, rfl, by simpa using ⟨hw, hb⟩⟩
      · simp at h

/-- Addressing the instance of window `w` either finds it addressed already, or exchanges it with the addressed one. -/
theorem State.select_cases {s t : State} {w : Nat} (h : s.select w = some t) :
    (s.window = w ∧ t = s) ∨
    (s.window ≠ w ∧ ∃ e before after, s.others = before ++ ⟨w, e⟩ :: after ∧ (∀ i ∈ before, i.window ≠ w) ∧
      t = { s with eng := e, window := w, others := before ++ ⟨s.window, s.eng⟩ :: after }) := by
  unfold State.select at h
  split at h
  · rename_i hw
    exact .inl ⟨hw, (Option.some.inj h).symm⟩
  · rename_i hw
    split at h
    · rename_i e rest heq
      obtain ⟨b, a, hs, rfl, hb⟩ := exchange_eq_some heq
      exact .inr ⟨hw, e, b, a, hs, hb, (Option.some.inj h).symm⟩
    · simp at h

/-- What addressing an instance leaves alone. -/
theorem State.select_around {s t : State} {w : Nat} (h : s.select w = some t) :
    t.window = w ∧ t.mem = s.mem ∧ t.plat = s.plat ∧ t.inputs = s.inputs ∧ t.responses = s.responses ∧
      t.portReads = s.portReads ∧ t.race = s.race ∧ t.draws = s.draws ∧ t.boundsBroken = s.boundsBroken := by
  obtain ⟨hw, rfl⟩ | ⟨-, e, b, a, -, -, rfl⟩ := State.select_cases h
  · exact ⟨hw, rfl, rfl, rfl, rfl, rfl, rfl, rfl, rfl⟩
  · exact ⟨rfl, rfl, rfl, rfl, rfl, rfl, rfl, rfl, rfl⟩

/-- An instance with that window can be addressed. -/
theorem State.select_isSome {s : State} {w : Nat} (h : w ∈ s.windows) : ∃ t, s.select w = some t := by
  unfold State.select
  split
  · exact ⟨s, rfl⟩
  · rename_i hw
    have hmem : w ∈ s.others.map (·.window) := by
      rcases List.mem_cons.1 h with h | h
      · exact absurd h.symm hw
      · exact h
    have : ∀ is : List Instance, w ∈ is.map (·.window) → ∃ p, exchange w ⟨s.window, s.eng⟩ is = some p := by
      intro is his
      induction is with
      | nil => simp at his
      | cons i is ih =>
        unfold exchange
        split
        · exact ⟨_, rfl⟩
        · rename_i hne
          rcases List.mem_cons.1 his with h' | h'
          · exact absurd h'.symm hne
          · obtain ⟨⟨e, rest⟩, hp⟩ := ih h'
            exact ⟨(e, i :: rest), by rw [hp]⟩
    obtain ⟨⟨e, rest⟩, hp⟩ := this _ hmem
    exact ⟨_, by rw [hp]⟩

/-! ### The end of a bus write -/

@[simp] theorem State.byteSteps_self (s : State) : s.byteSteps s = 0 := Nat.sub_self _

theorem timesOut_zero (p : Platform) : p.timesOut 0 = false := by
  unfold Platform.timesOut; split <;> simp

/-- A bus write that is completed without a fault: a reset that came meanwhile has zeroed the instance, and the other
agents' stores stand in memory. -/
theorem State.complete_eq_next {b a t : State} {r : Option Nat} (h : State.complete b r a = .next t) :
    ∃ u, ((r = none ∧ u = a) ∨ ∃ k, r = some k ∧ u = b.abandon a k) ∧
      t = { u with mem := u.mem.writeAll u.race, race := [] } := by
  unfold State.complete at h
  cases r with
  | none =>
    dsimp only at h
    split at h
    · simp at h
    · exact ⟨a, .inl ⟨rfl, rfl⟩, (Host.Outcome.next.inj h).symm⟩
  | some k =>
    dsimp only at h
    split at h
    · simp at h
    · exact ⟨b.abandon a k, .inr ⟨k, rfl, rfl⟩, (Host.Outcome.next.inj h).symm⟩

/-! ### One step -/

/-- All that a step to a next state can be. -/
theorem step_cases {s t : State} (h : step s = .next t) :
    (s.inputs = [] ∧ t = s) ∨
    ∃ rest, (∃ addr v d s1 u, s.inputs = .write addr 32 v d :: rest ∧ addr % 4 = 0 ∧
        State.select { s with inputs := rest } (addr / Config.windowBytes) = some s1 ∧
        busWrite (addr % Config.windowBytes) v { s1 with race := d.stores } = .next u ∧
        State.complete s1 d.resetAfter u = .next t) ∨
      (∃ addr s1, s.inputs = .read addr 32 :: rest ∧ addr % 4 = 0 ∧
        State.select { s with inputs := rest } (addr / Config.windowBytes) = some s1 ∧
        t = busRead (addr % Config.windowBytes) s1) ∨
      (∃ st, s.inputs = .store st :: rest ∧ t = performStore st { s with inputs := rest }) ∨
      (∃ w s1, s.inputs = .reset w :: rest ∧ State.select { s with inputs := rest } w = some s1 ∧
        t = s1.resetEngine) := by
  unfold step at h
  split at h
  · exact .inl ⟨‹_›, (Host.Outcome.next.inj h).symm⟩
  · rename_i i rest hi
    refine .inr ⟨rest, ?_⟩
    cases i with
    | write addr bits v d =>
      simp only [perform, performWrite] at h
      split at h
      · simp at h
      · rename_i s1 hs1
        split at h
        · rename_i hl
          simp only [legalAccess, Bool.and_eq_true, decide_eq_true_eq] at hl
          obtain ⟨rfl, hal⟩ := hl
          split at h
          · exact .inl ⟨addr, v, d, s1, _, hi, hal, hs1, ‹_›, h⟩
          · simp at h
          · simp at h
        · simp at h
    | read addr bits =>
      simp only [perform, performRead] at h
      split at h
      · simp at h
      · rename_i s1 hs1
        split at h
        · rename_i hl
          simp only [legalAccess, Bool.and_eq_true, decide_eq_true_eq] at hl
          obtain ⟨rfl, hal⟩ := hl
          exact .inr (.inl ⟨addr, s1, hi, hal, hs1, (Host.Outcome.next.inj h).symm⟩)
        · simp at h
    | store st => exact .inr (.inr (.inl ⟨st, hi, (Host.Outcome.next.inj h).symm⟩))
    | reset w =>
      simp only [perform, performReset] at h
      split at h
      · simp at h
      · rename_i s1 hs1
        exact .inr (.inr (.inr ⟨w, s1, hi, hs1, (Host.Outcome.next.inj h).symm⟩))

/-- `runSteps` is the host's `run` of the machine. -/
theorem runSteps_eq_core_run (k : Nat) (s : State) : runSteps k s = Sys2Proof.core.run k s := by
  induction k generalizing s with
  | zero => rfl
  | succ k ih =>
    have hn : ∀ (M : Host.Core) (x y : M.State), M.step x = .next y → M.run (k + 1) x = M.run k y := by
      intro M x y h; simp only [Host.Core.run, h]
    have hf : ∀ (M : Host.Core) (x : M.State) (r : M.Fault), M.step x = .fault r → M.run (k + 1) x = .fault r := by
      intro M x r h; simp only [Host.Core.run, h]
    have hr : ∀ (M : Host.Core) (x : M.State) (r : M.Refusal),
        M.step x = .refused r → M.run (k + 1) x = .refused r := by
      intro M x r h; simp only [Host.Core.run, h]
    cases h : step s with
    | next t =>
      rw [show runSteps (k + 1) s = runSteps k t by simp only [runSteps, h], ih]
      exact (hn Sys2Proof.core s t h).symm
    | fault r =>
      rw [show runSteps (k + 1) s = .fault r by simp only [runSteps, h]]
      exact (hf Sys2Proof.core s r h).symm
    | refused r =>
      rw [show runSteps (k + 1) s = .refused r by simp only [runSteps, h]]
      exact (hr Sys2Proof.core s r h).symm

end Sys2Proof.Machine
end

