-- ==== Sys2Proof/Tests/Slice0.lean ====
section
/-! SUPPORT. Tests: decoding of words written out from spec 30_encoding.md R66 and R69, one step at a time of the
vectors of 95_test_vectors.md, the well-formedness smoke test, and a witness for the hypotheses of every statement. -/

namespace Sys2Proof.Tests

open Sys2Proof Sys2Proof.Machine

/-! ### Helpers -/

/-- The next state, if there is one. -/
def after (o : Host.Outcome State Fault Refusal) : Option State :=
  match o with
  | .next t => some t
  | .fault _ => none
  | .refused _ => none

/-- A field of the next state's engine. -/
def seen {α : Type} (o : Host.Outcome State Fault Refusal) (f : Engine → α) : Option α :=
  (after o).map (fun t => f t.eng)

/-- The reset machine with another engine. -/
def machine (e : Engine) : State := { State.reset with eng := e }

/-- An open Fletcher-32 stream with no pending byte. -/
def open32 (a0 a1 : Word) (k : BitVec 9) : Engine :=
  { Engine.reset with mode := .f32, acc0 := a0, acc1 := a1, blkcnt := k }

/-- An open Fletcher-32 stream with a pending byte. -/
def open32p (a0 a1 : Word) (k : BitVec 9) (b : Byte) : Engine := { open32 a0 a1 k with pend := true, pendb := b }

/-- An open Fletcher-16 stream. -/
def open16 (a0 a1 : Word) : Engine := { Engine.reset with mode := .f16, acc0 := a0, acc1 := a1 }

/-- The engine with an error recorded. -/
def failed (code : ErrCode) (e : Engine) : Engine := { e with err := true, errcode := code }

/-- The reset machine with BASE, LEN and bytes placed from an address up. -/
def buffered (at_ : Nat) (bs : List Byte) (base len : Word) : State :=
  { State.reset with
    eng := { Engine.reset with base := base, len := len }
    mem := (List.range bs.length).foldl (fun m i => m.write (at_ + i) (bs.getD i 0)) [] }

/-- The memory and read port of program P5 of 95_test_vectors.md. -/
def p5 (base len : Word) : State :=
  { buffered 0x1000 [0x61, 0x62, 0x63, 0x64] base len with
    plat := { regions := [⟨0x1000, 4⟩, ⟨0xFFFFFFFF, 1⟩], busTimeout := none } }

/-- The machine with inputs waiting. -/
def given (is : List Input) (s : State) : State := { s with inputs := is }

/-- A second instance, in window 5, beside the first. -/
def twoEngines : State := { State.reset with others := [⟨5, open16 3 4⟩] }

/-- Another agent writes address 0x1000 during the next command. -/
def raced (s : State) : State := { s with race := [⟨0x1000, 9⟩] }

/-- A CSUM32 of three bytes waits, on a platform with a bus timeout. -/
def timed (limit : Nat) : State :=
  { given [.write 0 32 0x60000000 During.quiet] (p5 0x1000 3) with
    plat := { regions := [⟨0x1000, 4⟩], busTimeout := some limit } }

/-! ### Decoding: words written out bit by bit from R66 and R69 -/

theorem test_decode_nop : decode 0b0000_0000000000000000000000000000 = .ok .nop := by rfl
theorem test_decode_init32 : decode 0b0001_0000000000000000000000000000 = .ok .init32 := by rfl
theorem test_decode_init16 : decode 0b0010_0000000000000000000000000000 = .ok .init16 := by rfl
theorem test_decode_feed8 : decode 0b0011_00000000000000000000_10100101 = .ok (.feed8 0xA5) := by rfl
theorem test_decode_feed16 : decode 0b0100_000000000000_11000011_01011010 = .ok (.feed16 0xC35A) := by rfl
theorem test_decode_final : decode 0b0101_0000000000000000000000000000 = .ok .final := by rfl
theorem test_decode_csum32 : decode 0b0110_0000000000000000000000000000 = .ok .csum32 := by rfl
theorem test_decode_csum16 : decode 0b0111_0000000000000000000000000000 = .ok .csum16 := by rfl
theorem test_decode_clrerr : decode 0b1000_0000000000000000000000000000 = .ok .clrerr := by rfl

/-- 95_test_vectors.md 2.3. -/
theorem test_illegal_words :
    [0x00000001, 0x10000001, 0x30000100, 0x3FFFFF00, 0x40010000, 0x5FFFFFFF, 0x80000001, 0x90000000, 0xF0000000,
      0xFFFFFFFF].all (fun w : Word => (decode w).toOption.isNone) = true := by decide

/-- 95_test_vectors.md 2.3: an ILLEGAL word from reset leaves STATUS 0x110 and MODE 0. -/
theorem test_illegal_status :
    [0x00000001, 0x10000001, 0x30000100, 0x40010000, 0x5FFFFFFF, 0x90000000].all
      (fun w : Word => decide (seen (execute w State.reset) Engine.status = some 0x00000110)) = true := by decide

/-- 95_test_vectors.md 2.3, the last lines: the first error is kept, and the pending byte is untouched. -/
theorem test_illegal_keeps_first :
    seen (execute 0x90000000 (machine (failed .sequence (open32p 0 0 0 0x12)))) (fun e => (e.status, e.pendb)) =
      some (0x00000215, 0x12) := by decide

theorem test_table_word_feed8 : decodeTableWord 32 0x300000A5 = some (.feed8 0xA5) := by decide
theorem test_table_word_refused : decodeTableWord 32 0x30000100 = none := by decide

/-- The first step after reset runs the placed word: INIT16 sets MODE 2, STATUS 0x2 (95_test_vectors.md P3 line 4). -/
theorem test_fetch_word_init16 :
    seen (step (State.reset.withFetchWord 32 0x20000000)) Engine.status = some 0x00000002 := by decide

/-! ### Well-formedness (R66, R73): every check refuses an ill-formed term -/

theorem smoke_instr_wf : (Instr.feed8 0xFF).wellFormed && (Instr.feed16 0xFFFF).wellFormed = true := by decide
theorem smoke_feed8 : (AsmLine.feed8 255).wellFormed = true ∧ (AsmLine.feed8 256).wellFormed = false := by decide
theorem smoke_feed16 : (AsmLine.feed16 65535).wellFormed = true ∧ (AsmLine.feed16 65536).wellFormed = false := by
  decide
theorem smoke_wr_value :
    (AsmLine.wr .base (2 ^ 32 - 1)).wellFormed = true ∧ (AsmLine.wr .base (2 ^ 32)).wellFormed = false := by decide
theorem smoke_wr_name : (AsmLine.wr .len 1).wellFormed = true ∧ (AsmLine.wr .status 1).wellFormed = false := by decide
theorem smoke_word : (AsmLine.word (2 ^ 32)).wellFormed = false := by decide
theorem smoke_feedw : (AsmLine.feedw 65536).wellFormed = false := by decide
theorem smoke_feedbytes : (AsmLine.feedbytes [1, 256]).wellFormed = false := by decide
theorem smoke_chk32 :
    (AsmLine.chk32 (2 ^ 32) 1).wellFormed = false ∧ (AsmLine.chk32 1 (2 ^ 32)).wellFormed = false := by decide
theorem smoke_chk16 :
    (AsmLine.chk16 (2 ^ 32) 1).wellFormed = false ∧ (AsmLine.chk16 1 (2 ^ 32)).wellFormed = false := by decide
theorem smoke_stream32 : (AsmLine.stream32 [256]).wellFormed = false := by decide
theorem smoke_stream16 : (AsmLine.stream16 [256]).wellFormed = false := by decide
theorem smoke_assemble_refuses : assemble 0 (.feed8 256) = none := by decide

/-- 95_test_vectors.md P1: the words of STREAM32 over "abc". -/
theorem test_assemble_stream32 :
    assemble 0 (.stream32 [0x61, 0x62, 0x63]) =
      some [writeInput 0 0 0x10000000, writeInput 0 0 0x40006261, writeInput 0 0 0x30000063,
        writeInput 0 0 0x50000000] := by decide

/-- 95_test_vectors.md P2: CHK16 writes offsets 0x20 and 0x24, then the command. -/
theorem test_assemble_chk16 :
    assemble 1 (.chk16 0x2001 6) =
      some [writeInput 1 0x20 0x2001, writeInput 1 0x24 6, writeInput 1 0 0x70000000] := by decide

/-! ### Single steps of the spec's vectors -/

/-- V1.5. -/
theorem test_nop_keeps_pending :
    seen (exec .nop (machine { open32p 0 0 0 0x12 with count := 1 })) (fun e => (e.status, e.pendb, e.count)) =
      some (0x00000005, 0x12, 1) := by decide

/-- R98: RESULT survives while DONE is cleared. -/
theorem test_init32_keeps_result :
    seen (exec .init32 (machine { open16 3 4 with result := 0x101, count := 9, isDone := true, base := 7 }))
      (fun e => (e.status, e.result, e.acc1, e.count, e.base)) = some (0x00000001, 0x101, 0, 0, 7) := by decide

/-- V1.8: INIT16 abandons a Fletcher-32 stream. -/
theorem test_init16_abandons :
    seen (exec .init16 (machine { open32p 5 6 7 1 with count := 15 }))
      (fun e => (e.status, e.blkcnt, e.pendb, e.count)) = some (0x00000002, 0, 0, 0) := by decide

/-- V2.8: sum1 wraps to 0, sum2 keeps 254. -/
theorem test_feed8_f16_wraps :
    seen (exec (.feed8 0x01) (machine (open16 0xFE 0xFE))) (fun e => (e.acc0, e.acc1)) = some (0, 0xFE) := by decide

/-- P4 line 5, the last byte of the worst block. -/
theorem test_feed8_f32_last_of_block :
    seen (exec (.feed8 0xFF) (machine (open32p 0x0167FE97 0xFDD300C4 359 0xFF)))
      (fun e => (e.acc0, e.acc1, e.blkcnt, e.pend)) = some (0xFFFE, 0xFE96, 0, false) := by decide

/-- V2.2: FEED16 with a pending byte. -/
theorem test_feed16_pending :
    seen (exec (.feed16 0x5634) (machine { open32p 0 0 0 0x12 with count := 1 }))
      (fun e => (e.acc0, e.acc1, e.blkcnt, e.pend, e.pendb, e.count)) = some (0x3412, 0x3412, 1, true, 0x56, 3) := by
  decide

/-- 95_test_vectors.md 2.5: the word 0xABAB as the 360th of a block. -/
theorem test_feed16_block_boundary :
    seen (exec (.feed16 0xABAB) (machine { open32 0x00F0BCCD 0xA944C024 359 with count := 718 }))
      (fun e => (e.acc0, e.acc1, e.blkcnt, e.count)) = some (0x6969, 0xD2D2, 0, 720) := by decide

/-- V2.3: FINAL with a pending byte. -/
theorem test_final_f32_pending :
    seen (exec .final (machine { open32p 0x3412 0x3412 1 0x56 with count := 3 }))
      (fun e => (e.acc0, e.acc1, e.result, e.status, e.count)) =
      some (0x3468, 0x687A, 0x687A3468, 0x00000008, 3) := by decide

/-- V1.7: FINAL when IDLE after a close keeps RESULT and DONE. -/
theorem test_final_idle :
    seen (exec .final (machine { Engine.reset with result := 0x101, isDone := true })) (fun e => (e.status, e.result)) =
      some (0x00000218, 0x101) := by decide

/-- V1.6. -/
theorem test_clrerr :
    seen (exec .clrerr (machine (failed .sequence { Engine.reset with isDone := true }))) Engine.status =
      some 0x00000008 := by decide

/-- V4.8: "abcdef" at an odd address, and each byte read once in ascending order. -/
theorem test_csum32_odd_base :
    (after (exec .csum32 (buffered 0x2001 [0x61, 0x62, 0x63, 0x64, 0x65, 0x66] 0x2001 6))).map
      (fun t => (t.eng.result, t.eng.count, t.portReads)) =
      some (0x56502D2A, 6, [0x2006, 0x2005, 0x2004, 0x2003, 0x2002, 0x2001]) := by decide

/-- V4.6: the byte at the top address. -/
theorem test_csum32_top_address :
    seen (exec .csum32 (buffered 0xFFFFFFFF [0x5A] 0xFFFFFFFF 1)) (fun e => (e.result, e.status)) =
      some (0x005A005A, 0x00000008) := by decide

/-- V4.2. -/
theorem test_csum16_abcdef :
    seen (exec .csum16 (buffered 0x1000 [0x61, 0x62, 0x63, 0x64, 0x65, 0x66] 0x1000 6))
      (fun e => (e.result, e.acc0, e.acc1)) = some (0x00002057, 0x57, 0x20) := by decide

/-- V4.5: RANGE, nothing read. -/
theorem test_csum16_range :
    (after (exec .csum16 (buffered 0 [] 0xFFFFFFFF 2))).map (fun t => (t.eng.status, t.portReads)) =
      some (0x00000410, []) := by decide

/-- V4.4: MEMFAULT after four bytes; the registers the spec fixes. -/
theorem test_csum32_memfault :
    seen (exec .csum32 (p5 0x1000 6)) (fun e => (e.status, e.pendb, e.blkcnt, e.result)) =
      some (0x00000310, 0, 0, 0) := by decide

/-- V4.4: four bytes read, and the run marked. -/
theorem test_csum32_memfault_reads :
    (after (exec .csum32 (p5 0x1000 6))).map (fun t => (t.portReads, t.boundsBroken)) =
      some ([0x1003, 0x1002, 0x1001, 0x1000], true) := by decide

/-- 95_test_vectors.md 2.1: "abcde". -/
theorem test_reference_abcde :
    fletcher32 [0x61, 0x62, 0x63, 0x64, 0x65] = 0xF04FC729 ∧ fletcher16 [0x61, 0x62, 0x63, 0x64, 0x65] = 0xC8F0 := by
  decide

/-- 95_test_vectors.md 2.1: the S6 bytes. -/
theorem test_reference_s6 :
    fletcher32 [0x12, 0x34, 0x56, 0x78, 0x9A, 0xBC, 0xDE, 0xF0] = 0xA36059E2 ∧
    fletcher16 [0x12, 0x34, 0x56, 0x78, 0x9A, 0xBC, 0xDE, 0xF0] = 0xAD3C := by decide

/-- 10_state.md R37: a 16-bit access is refused. -/
theorem test_narrow_access_refused :
    (after (step (given [.read 0x1C 16] State.reset))).isNone = true := by decide

/-! ### Witnesses: a concrete instance of the hypotheses of each statement, each clause at its boundary -/

theorem witness_OpcodeMapDecidesTheCommand : 9 ≤ (0x90000000 : Word).toNat / 2 ^ 28 := by decide

theorem witness_DecoderIsTotalAndUnambiguous :
    ∃ r ∈ opcodeMap, (0x300000FF : Word) &&& r.mask = r.pattern := by decide

/-- One word for each kind of ILLEGAL word. -/
theorem witness_IllegalWordsOnlyRecordTheError :
    9 ≤ (0x90000000 : Word).toNat / 2 ^ 28 ∧
    ((0x30000100 : Word).toNat / 2 ^ 28 = 3 ∧ (0x30000100 : Word).toNat % 2 ^ 28 / 2 ^ 8 ≠ 0) ∧
    ((0x40010000 : Word).toNat / 2 ^ 28 = 4 ∧ (0x40010000 : Word).toNat % 2 ^ 28 / 2 ^ 16 ≠ 0) ∧
    ((0x80000001 : Word).toNat / 2 ^ 28 ≤ 8 ∧ (0x80000001 : Word).toNat / 2 ^ 28 ≠ 3 ∧
      (0x80000001 : Word).toNat / 2 ^ 28 ≠ 4 ∧ (0x80000001 : Word).toNat % 2 ^ 28 ≠ 0) ∧
    (∃ k, decode 0x90000000 = .error k) := ⟨by decide, by decide, by decide, by decide, _, rfl⟩

/-- A CSUM16 delivered to the second instance while another agent stores a byte; the step is a next state. -/
theorem witness_StepRunsTheDeliveredCommand :
    ∃ s1, (State.select { (given [.write (64 * 5) 32 0x70000000 ⟨[⟨9, 1⟩], none⟩] twoEngines) with inputs := [] } 5 =
        some s1) ∧
      decode 0x70000000 = .ok .csum16 ∧
      ∃ t, step (given [.write (64 * 5) 32 0x70000000 ⟨[⟨9, 1⟩], none⟩] twoEngines) = .next t :=
  ⟨_, rfl, rfl, _, rfl⟩

theorem witness_NoInputHoldsTheState : State.reset.inputs = [] := rfl

theorem witness_NopChangesNothing : (0x00000001 : Word).toNat / 2 ^ 28 = 0 ∧ (0x00000001 : Word) ≠ 0 := by decide

theorem witness_Init16OpensAFletcher16Stream :
    ∀ c ∈ [Instr.feed8 0xFF, .nop, .feed16 0x1234, .clrerr], mayFeed c = true := by decide

theorem witness_SequenceErrorExactlyWhenIdle :
    (Instr.feed8 1 = .final ∨ (∃ b, Instr.feed8 1 = .feed8 b) ∨ ∃ h, Instr.feed8 1 = .feed16 h) ∧
    (Instr.feed16 1 = .final ∨ (∃ b, Instr.feed16 1 = .feed8 b) ∨ ∃ h, Instr.feed16 1 = .feed16 h) ∧
    (Instr.final = .final ∨ (∃ b, Instr.final = .feed8 b) ∨ ∃ h, Instr.final = .feed16 h) ∧
    State.reset.eng.mode = .idle ∧ (machine (open16 0 0)).eng.mode ≠ .idle ∧
    (p5 0x1000 6).rangeFits ∧ (p5 0xFFFFFFFF 1).rangeFits :=
  ⟨.inr (.inl ⟨1, rfl⟩), .inr (.inr ⟨1, rfl⟩), .inl rfl, rfl, by decide, by decide, by decide⟩

/-- The sums after 359 words of 0xFFFF upon the largest residues, with and without a pending byte. -/
theorem witness_FinalClosesAFletcher32Stream :
    (machine (open32 0x0167FE97 0xFDD300C4 359)).eng.Inv ∧ (machine (open32 0x0167FE97 0xFDD300C4 359)).eng.mode = .f32 ∧
    (machine (open32p 0 0 0 0xFF)).eng.Inv ∧ (machine (open32p 0 0 0 0xFF)).eng.mode = .f32 := by decide

theorem witness_FinalClosesAFletcher16Stream :
    (machine (open16 254 254)).eng.Inv ∧ (machine (open16 254 254)).eng.mode = .f16 := by decide

theorem witness_ClrerrClearsOnlyTheErrorRecord :
    (0x80000001 : Word).toNat / 2 ^ 28 = 8 ∧ (0x80000001 : Word).toNat % 2 ^ 28 ≠ 0 ∧
    State.reset.eng.Inv ∧ State.reset.eng.err = false ∧
    (machine (failed .sequence Engine.reset)).eng.status = 0x00000210 := by decide

/-- No pending byte; a pending byte with 358 words summed; one with 359 words summed and the largest sums. -/
theorem witness_Feed8InAFletcher32Stream :
    ((machine (open32 65534 65534 0)).eng.Inv ∧ (machine (open32 65534 65534 0)).eng.mode = .f32 ∧
      (machine (open32 65534 65534 0)).eng.pend = false) ∧
    ((machine (open32p 1 1 358 0xFF)).eng.Inv ∧ (machine (open32p 1 1 358 0xFF)).eng.mode = .f32 ∧
      (machine (open32p 1 1 358 0xFF)).eng.pend = true ∧ (machine (open32p 1 1 358 0xFF)).eng.blkcnt.toNat < 359) ∧
    ((machine (open32p 0x0167FE97 0xFDD300C4 359 0xFF)).eng.Inv ∧
      (machine (open32p 0x0167FE97 0xFDD300C4 359 0xFF)).eng.mode = .f32 ∧
      (machine (open32p 0x0167FE97 0xFDD300C4 359 0xFF)).eng.pend = true ∧
      (machine (open32p 0x0167FE97 0xFDD300C4 359 0xFF)).eng.blkcnt.toNat = 359) :=
  ⟨by decide, by decide, by decide⟩

theorem witness_Feed8InAFletcher16Stream :
    (machine (open16 254 254)).eng.Inv ∧ (machine (open16 254 254)).eng.mode = .f16 := by decide

theorem witness_Feed16FeedsTheLowByteFirst :
    (machine (open16 1 2)).eng.mode ≠ .idle ∧
    ((machine (open32p 0 0 359 7)).eng.mode = .f32 ∧ (machine (open32p 0 0 359 7)).eng.pend = true) ∧
    ((machine (open32 0 0 358)).eng.Inv ∧ (machine (open32 0 0 358)).eng.mode = .f32 ∧
      (machine (open32 0 0 358)).eng.pend = false ∧ (machine (open32 0 0 358)).eng.blkcnt.toNat < 359) := by decide

theorem witness_StreamsAgreeWithTheReference :
    (∀ c ∈ [Instr.feed8 1, .nop, .clrerr, .feed16 2], mayFeed c = true) ∧
    (∀ c ∈ [Instr.feed8 1, .feed16 2], mayFeed c = true) ∧ (∀ c ∈ [Instr.feed8 1, .feed16 2], isFeed c = true) := by
  decide

/-- A buffer at an odd address, one that ends at the top of the address space, and an empty one. -/
theorem witness_BufferCommandsComputeTheReference :
    (buffered 0x2001 [0x61, 0x62, 0x63] 0x2001 3).callerContract ∧
    (buffered 0xFFFFFFFF [0x5A] 0xFFFFFFFF 1).callerContract ∧ (buffered 0 [] 0x77 0).callerContract := by decide

theorem witness_ReadsAreAscendingAndOnce :
    ¬ (p5 0xFFFFFFFF 2).rangeFits ∧ (p5 0x1000 6).rangeFits ∧ (p5 0xFFFFFFFF 1).rangeFits ∧
    Instr.nop ≠ .csum32 ∧ Instr.nop ≠ .csum16 := by decide

theorem witness_WrappingRangeOnlyRecordsRange :
    2 ^ 32 < (p5 0xFFFFFFFF 2).eng.base.toNat + (p5 0xFFFFFFFF 2).eng.len.toNat := by decide

/-- The lowest unreadable byte at offset 4, and at offset 0. -/
theorem witness_UnreadableByteRaisesMemfault :
    ((p5 0x1000 6).rangeFits ∧ 4 < (p5 0x1000 6).eng.len.toNat ∧
      (∀ j < 4, (p5 0x1000 6).plat.readable ((p5 0x1000 6).eng.base.toNat + j) = true) ∧
      (p5 0x1000 6).plat.readable ((p5 0x1000 6).eng.base.toNat + 4) = false) ∧
    ((p5 0x2000 1).rangeFits ∧ 0 < (p5 0x2000 1).eng.len.toNat ∧
      (∀ j < 0, (p5 0x2000 1).plat.readable ((p5 0x2000 1).eng.base.toNat + j) = true) ∧
      (p5 0x2000 1).plat.readable ((p5 0x2000 1).eng.base.toNat + 0) = false) := by decide

/-- A range one byte of which another agent writes; the other byte is quiet. -/
theorem witness_RacingBytesAreFreeAndTheRestHolds :
    (raced (p5 0x1000 2)).rangeFits ∧ (raced (p5 0x1000 2)).rangeReadable ∧
    (raced (p5 0x1000 2)).racing 0x1000 = true ∧ (raced (p5 0x1000 2)).racing 0x1001 = false := by decide

theorem witness_SourceOfTheBytesDoesNotMatter :
    (p5 0x1000 3).callerContract ∧ (∀ c ∈ [Instr.feed8 0x61, .nop, .feed16 0x6362], mayFeed c = true) ∧
    streamOf [Instr.feed8 0x61, .nop, .feed16 0x6362] = (p5 0x1000 3).buffer := by decide

theorem witness_PlaceOfTheBufferDoesNotMatter :
    (buffered 0x1000 [1, 2, 3] 0x1000 3).callerContract ∧ (buffered 0x2001 [1, 2, 3] 0x2001 3).callerContract ∧
    (buffered 0x1000 [1, 2, 3] 0x1000 3).buffer = (buffered 0x2001 [1, 2, 3] 0x2001 3).buffer := by decide

theorem witness_ReferenceHasTheClosedForms :
    ([[0x0201], [], [0x0403, 0x0005]] : List (List Half)).flatten = wordView [1, 2, 3, 4, 5] := by decide

theorem witness_BlockSumsFitThirtyTwoBits :
    (65534, 65534).1 ≤ 65534 ∧ (65534, 65534).2 ≤ 65534 ∧ (List.replicate 360 (0xFFFF : Half)).length ≤ 360 :=
  ⟨le_refl _, le_refl _, List.length_replicate.le⟩

theorem witness_OddLengthIsZeroPadded : ([1, 2, 3] : List Byte).length % 2 = 1 := by decide

theorem witness_ResultsAreFullyReduced :
    plainSum ((wordView [0xFE, 0xFF, 0x01]).map BitVec.toNat) % 65535 = 0 := by decide

theorem witness_FirstErrorIsKept :
    (0x90000000 : Word) ≠ 0x80000000 ∧ (machine (failed .range Engine.reset)).eng.err = true := by decide

/-- One command word for each code, and the states in which no code applies. -/
theorem witness_ErrorPriority :
    ((p5 0x1000 4).eng.err = false ∧ (p5 0x1000 4).eng.errcode = .none) ∧
    (∃ k, decode 0x30000100 = .error k) ∧
    (decode 0x300000FF = .ok (.feed8 0xFF) ∧ (p5 0x1000 4).eng.mode = .idle ∧ (machine (open16 1 1)).eng.mode ≠ .idle) ∧
    ¬ (p5 0xFFFFFFFF 2).rangeFits ∧
    ((p5 0x1000 5).rangeFits ∧ ¬ (p5 0x1000 5).rangeReadable) ∧
    ((p5 0x1000 4).rangeFits ∧ (p5 0x1000 4).rangeReadable) :=
  ⟨by decide, ⟨_, rfl⟩, ⟨rfl, by decide, by decide⟩, by decide, by decide, by decide⟩

/-- A command that closes a computation, and one that does not. -/
theorem witness_ResultIsWrittenOnlyAtAClose :
    (∃ t, exec .final (machine (open16 1 1)) = .next t) ∧ (∃ t, exec .final State.reset = .next t) :=
  ⟨⟨_, rfl⟩, ⟨_, rfl⟩⟩

theorem witness_StartingAbandonsTheOpenStream : (p5 0xFFFFFFFF 1).rangeFits ∧ (p5 0x1000 6).rangeFits := by decide

/-- A write to the second instance of a machine whose two instances meet R40. -/
theorem witness_EveryStepKeepsTheEngineInvariants :
    twoEngines.EnginesInv ∧ (given [.write (64 * 5) 32 0x300000FF During.quiet] twoEngines).EnginesInv ∧
    ∃ t, step (given [.write (64 * 5) 32 0x300000FF During.quiet] twoEngines) = .next t :=
  ⟨by decide, by decide, _, rfl⟩

theorem witness_EveryStepKeepsMemoryAndPlatform :
    (given [.store ⟨7, 1⟩] (p5 0x1000 6)).mem.wf = true ∧ (given [.store ⟨7, 1⟩] (p5 0x1000 6)).WindowsDistinct ∧
    ∃ t, step (given [.store ⟨7, 1⟩] (p5 0x1000 6)) = .next t := ⟨by decide, by decide, _, rfl⟩

/-- A command of one instance, and the other instance's window. -/
theorem witness_InstancesShareNoState :
    (given [.write 0 32 0x10000000 During.quiet] twoEngines).WindowsDistinct ∧
    (∃ t, step (given [.write 0 32 0x10000000 During.quiet] twoEngines) = .next t) ∧
    (∀ addr bits v d rest,
      (given [.write 0 32 0x10000000 During.quiet] twoEngines).inputs = .write addr bits v d :: rest → addr / 64 ≠ 5) ∧
    (∀ rest, (given [.write 0 32 0x10000000 During.quiet] twoEngines).inputs ≠ .reset 5 :: rest) := by
  refine ⟨by decide, ⟨_, rfl⟩, ?_, ?_⟩
  · intro addr bits v d rest h
    cases h
    decide
  · intro rest h
    cases h

/-- INIT16 in the second instance clears its sums. -/
theorem witness_AccumulatorsChangeOnlyByTheirCommands :
    (given [.write (64 * 5) 32 0x20000000 During.quiet] twoEngines).WindowsDistinct ∧
    ∃ t e e', step (given [.write (64 * 5) 32 0x20000000 During.quiet] twoEngines) = .next t ∧
      (given [.write (64 * 5) 32 0x20000000 During.quiet] twoEngines).engineAt 5 = some e ∧
      t.engineAt 5 = some e' ∧ (e'.acc0 ≠ e.acc0 ∨ e'.acc1 ≠ e.acc1) :=
  ⟨by decide, _, _, _, rfl, rfl, rfl, by decide⟩

/-- A write of BASE. -/
theorem witness_BaseAndLenChangeOnlyByHostWrites :
    (given [.write 0x20 32 0x2001 During.quiet] twoEngines).WindowsDistinct ∧
    ∃ t e e', step (given [.write 0x20 32 0x2001 During.quiet] twoEngines) = .next t ∧
      (given [.write 0x20 32 0x2001 During.quiet] twoEngines).engineAt 0 = some e ∧
      t.engineAt 0 = some e' ∧ (e'.base ≠ e.base ∨ e'.len ≠ e.len) :=
  ⟨by decide, _, _, _, rfl, rfl, rfl, by decide⟩

/-- The second instance, which is not the one addressed: a read of the last offset, and each kind of write. -/
theorem witness_WindowReadsAndWrites :
    (0x3C % 4 = 0 ∧ 0x3C < 64 ∧
      (given [.read (64 * 5 + 0x3C) 32] twoEngines).inputs = .read (64 * 5 + 0x3C) 32 :: []) ∧
    (∀ off ∈ [0x00, 0x04, 0x20, 0x24, 0x3C], off % 4 = 0 ∧ off < 64 ∧
      (given [.write (64 * 5 + off) 32 1 During.quiet] twoEngines).inputs =
        .write (64 * 5 + off) 32 1 During.quiet :: []) ∧
    (∃ s1, State.select { (given [.read (64 * 5 + 0x3C) 32] twoEngines) with inputs := [] } 5 = some s1 ∧
      s1.eng.acc1 = 4) ∧
    twoEngines.plat.busTimeout = none := ⟨by decide, by decide, ⟨_, rfl, rfl⟩, rfl⟩

/-- The first and the second instance have a window, and window 7 has none. -/
theorem witness_AddressingFindsTheInstance :
    twoEngines.WindowsDistinct ∧ 0 ∈ twoEngines.windows ∧ 5 ∈ twoEngines.windows ∧ 7 ∉ twoEngines.windows := by decide

/-- A narrow read, and a write at an odd address of the second instance. -/
theorem witness_OtherAccessesAreRefused :
    (0x1C / 64 ∈ (given [.read 0x1C 16] twoEngines).windows ∧ (16 ≠ 32 ∨ 0x1C % 4 ≠ 0)) ∧
    ((64 * 5 + 2) / 64 ∈ (given [.write (64 * 5 + 2) 32 1 During.quiet] twoEngines).windows ∧
      (32 ≠ 32 ∨ (64 * 5 + 2) % 4 ≠ 0)) := by decide

/-- Reset of the second instance, between commands and during a write of its BASE. -/
theorem witness_ResetInputResetsTheInstance :
    (given [.reset 5] twoEngines).inputs = .reset 5 :: [] ∧
    (∃ s1, State.select { (given [.reset 5] twoEngines) with inputs := [] } 5 = some s1) ∧
    (0x20 % 4 = 0 ∧ 0x20 < 64 ∧ 0x20 ≠ 0 ∧
      (given [.write (64 * 5 + 0x20) 32 7 ⟨[⟨9, 1⟩], some 0⟩] twoEngines).inputs =
        .write (64 * 5 + 0x20) 32 7 ⟨[⟨9, 1⟩], some 0⟩ :: []) :=
  ⟨rfl, ⟨_, rfl⟩, by decide⟩

/-- Reset after one of the three bytes of a CSUM32, beside a racing store. -/
theorem witness_ResetInputResetsTheInstance_command :
    (given [.write (64 * 0) 32 0x60000000 ⟨[⟨0x1000, 9⟩], some 1⟩] (p5 0x1000 3)).inputs =
      .write (64 * 0) 32 0x60000000 ⟨[⟨0x1000, 9⟩], some 1⟩ :: [] ∧
    (p5 0x1000 3).select 0 = some (p5 0x1000 3) ∧ (p5 0x1000 3).plat.timesOut 1 = false := ⟨rfl, rfl, rfl⟩

/-- 70_reset_and_hazards.md R135: of the abandoned CSUM32 one read is left. -/
theorem test_reset_during_csum32 :
    (after (step (given [.write 0 32 0x60000000 ⟨[], some 1⟩] (p5 0x1000 3)))).map (fun t => (t.portReads, t.eng)) =
      some ([0x1000], Engine.reset) := by decide

theorem witness_VisibleStoresAreRead :
    (given [.store ⟨0x1001, 0⟩] (p5 0x1000 3)).mem.wf = true ∧
    (given [.store ⟨0x1001, 0⟩] (p5 0x1000 3)).inputs = .store ⟨0x1001, 0⟩ :: [] := by decide

/-- The limit just reached, and just passed: CSUM32 of three bytes with limits 3 and 2. -/
theorem witness_BusTimeoutStopsOnlyLongerAccesses :
    (timed 3).inputs = .write (64 * (timed 3).window) 32 0x60000000 During.quiet :: [] ∧
    (timed 3).plat.busTimeout = some 3 ∧ (timed 3).rangeFits ∧ (timed 3).rangeReadable ∧
    (timed 3).eng.len.toNat ≤ 3 ∧
    (timed 2).inputs = .write (64 * (timed 2).window) 32 0x60000000 During.quiet :: [] ∧
    (timed 2).plat.busTimeout = some 2 ∧ (timed 2).rangeFits ∧ (timed 2).rangeReadable ∧
    2 < (timed 2).eng.len.toNat := by decide

theorem witness_AssembledStreamsReadTheirChecksum : State.reset.boundsBroken = false := rfl

end Sys2Proof.Tests
end

section
/-! SUPPORT. What a command does in each mode, and what every command and every bus write leaves alone
(spec 41_control_commands.md to 43_buffer_commands.md, 10_state.md R36). -/

namespace Sys2Proof.Machine

/-! ### Each command's meaning -/

@[simp] theorem exec_nop (s : State) : exec .nop s = .next s := rfl
@[simp] theorem exec_init32 (s : State) : exec .init32 s = .next (s.withEngine (s.eng.start .f32)) := rfl
@[simp] theorem exec_init16 (s : State) : exec .init16 s = .next (s.withEngine (s.eng.start .f16)) := rfl
@[simp] theorem exec_csum32 (s : State) : exec .csum32 s = .next (s.csum .f32) := rfl
@[simp] theorem exec_csum16 (s : State) : exec .csum16 s = .next (s.csum .f16) := rfl
@[simp] theorem exec_clrerr (s : State) : exec .clrerr s = .next (s.withEngine s.eng.clearError) := rfl

theorem exec_feed8_of_idle {s : State} (h : s.eng.mode = .idle) (b : Byte) :
    exec (.feed8 b) s = .next (s.raise .sequence) := if_pos h

theorem exec_feed8_of_open {s : State} (h : s.eng.mode ≠ .idle) (b : Byte) :
    exec (.feed8 b) s = .next (s.withEngine (s.eng.feedbyte b)) := if_neg h

theorem exec_feed16_of_idle {s : State} (h : s.eng.mode = .idle) (w : Half) :
    exec (.feed16 w) s = .next (s.raise .sequence) := if_pos h

theorem exec_feed16_of_open {s : State} (h : s.eng.mode ≠ .idle) (w : Half) :
    exec (.feed16 w) s = .next (s.withEngine ((s.eng.feedbyte (loByte w)).feedbyte (hiByte w))) := if_neg h

theorem exec_final_of_idle {s : State} (h : s.eng.mode = .idle) :
    exec .final s = .next (s.raise .sequence) := if_pos h

theorem exec_final_of_open {s : State} (h : s.eng.mode ≠ .idle) :
    exec .final s = .next (s.withEngine s.eng.finish) := if_neg h

/-! ### What a command leaves alone -/

/-- `csum(m)` changes the engine, what the port has seen, the draws and the mark, and nothing else. -/
theorem State.csum_around (s : State) (m : Mode) :
    ∃ e p d b, s.csum m = { s with eng := e, portReads := p, draws := d, boundsBroken := b } := by
  obtain ⟨-, h⟩ | ⟨-, -, h⟩ | ⟨-, k, -, -, -, h⟩ := s.csum_cases m
  · exact ⟨_, _, _, _, h⟩
  · rw [h, State.feedFrom_around]
    exact ⟨_, _, _, _, rfl⟩
  · rw [h, State.feedFrom_around]
    exact ⟨_, _, _, _, rfl⟩

/-- Every command answers a next state, and changes at most the engine, what the port has seen, the draws and the
mark. -/
theorem exec_around (i : Instr) (s : State) :
    ∃ e p d b, exec i s = .next { s with eng := e, portReads := p, draws := d, boundsBroken := b } := by
  cases i with
  | nop | init32 | init16 | clrerr => exact ⟨_, _, _, _, rfl⟩
  | feed8 b =>
    by_cases h : s.eng.mode = .idle
    · exact ⟨_, _, _, _, exec_feed8_of_idle h b⟩
    · exact ⟨_, _, _, _, exec_feed8_of_open h b⟩
  | feed16 w =>
    by_cases h : s.eng.mode = .idle
    · exact ⟨_, _, _, _, exec_feed16_of_idle h w⟩
    · exact ⟨_, _, _, _, exec_feed16_of_open h w⟩
  | final =>
    by_cases h : s.eng.mode = .idle
    · exact ⟨_, _, _, _, exec_final_of_idle h⟩
    · exact ⟨_, _, _, _, exec_final_of_open h⟩
  | csum32 | csum16 =>
    obtain ⟨e, p, d, b, h⟩ := s.csum_around _
    exact ⟨e, p, d, b, congrArg _ h⟩

theorem execute_of_decode_ok {w : Word} {i : Instr} (h : decode w = .ok i) (s : State) :
    execute w s = exec i s := by
  simp only [execute, h]

theorem execute_of_decode_error {w : Word} {r : Illegal} (h : decode w = .error r) (s : State) :
    execute w s = .next (s.raise .illegal) := by
  simp only [execute, h]

/-- Every command word answers a next state, and changes no more than a command does. -/
theorem execute_around (w : Word) (s : State) :
    ∃ e p d b, execute w s = .next { s with eng := e, portReads := p, draws := d, boundsBroken := b } := by
  cases h : decode w with
  | ok i =>
    rw [execute_of_decode_ok h]
    exact exec_around i s
  | error r => exact ⟨_, _, _, _, execute_of_decode_error h s⟩

/-! ### Register writes and bus writes -/

@[simp] theorem Engine.writeRegister_base (e : Engine) (v : Word) :
    e.writeRegister 0x20 v = { e with base := v } := rfl

@[simp] theorem Engine.writeRegister_len (e : Engine) (v : Word) :
    e.writeRegister 0x24 v = { e with len := v } := rfl

/-- R32: a write to any other offset has no effect. -/
theorem Engine.writeRegister_other (e : Engine) {off : Nat} (v : Word) (hb : off ≠ 0x20) (hl : off ≠ 0x24) :
    e.writeRegister off v = e := by
  unfold Engine.writeRegister
  split
  · contradiction
  · contradiction
  · rfl

@[simp] theorem busWrite_cmd (v : Word) (s : State) : busWrite 0 v s = execute v s := rfl

theorem busWrite_register {off : Nat} (h : off ≠ 0) (v : Word) (s : State) :
    busWrite off v s = .next (s.withEngine (s.eng.writeRegister off v)) := if_neg h

/-- Every bus write answers a next state, and changes no more than a command does. -/
theorem busWrite_around (off : Nat) (v : Word) (s : State) :
    ∃ e p d b, busWrite off v s = .next { s with eng := e, portReads := p, draws := d, boundsBroken := b } := by
  by_cases h : off = 0
  · subst h
    exact execute_around v s
  · exact ⟨_, _, _, _, busWrite_register h v s⟩

end Sys2Proof.Machine
end

section
/-! SUPPORT. The invariants of spec 10_state.md R40: what they say in each mode, that every procedure of the engine
keeps them, and that every step keeps them for all engines. -/

namespace Sys2Proof.Machine

/-! ### R40 mode by mode -/

theorem Mode.bits_ne_three (m : Mode) : m.bits ≠ 3 := by cases m <;> decide

theorem ErrCode.bits_le_four (c : ErrCode) : c.bits.toNat ≤ 4 := by cases c <;> decide

/-- The bounds of R40 clause 5 on an open Fletcher-32 block. -/
abbrev Engine.BlockBounds (e : Engine) : Prop :=
  e.blkcnt.toNat ≤ 359 ∧
  e.acc0.toNat ≤ 65534 + 65535 * e.blkcnt.toNat ∧
  e.acc1.toNat ≤ 65534 * (e.blkcnt.toNat + 1) + 65535 * e.blkcnt.toNat * (e.blkcnt.toNat + 1) / 2

theorem Engine.inv_iff_of_idle {e : Engine} (hm : e.mode = .idle) :
    e.Inv ↔ e.pend = false ∧ e.pendb = 0 ∧ e.blkcnt = 0 ∧ (e.err = false ↔ e.errcode = .none) := by
  constructor
  · rintro ⟨hpendb, hpend, hblk, -, -, herr, -⟩
    have hm32 : e.mode ≠ .f32 := by simp [hm]
    exact ⟨hpend hm32, hpendb (hpend hm32), hblk hm32, herr⟩
  · rintro ⟨hpend, hpendb, hblk, herr⟩
    exact ⟨fun _ => hpendb, fun _ => hpend, fun _ => hblk, by simp [hm], by simp [hm], herr, e.mode.bits_ne_three,
      e.errcode.bits_le_four⟩

theorem Engine.inv_iff_of_f16 {e : Engine} (hm : e.mode = .f16) :
    e.Inv ↔ e.pend = false ∧ e.pendb = 0 ∧ e.blkcnt = 0 ∧ (e.acc0.toNat ≤ 254 ∧ e.acc1.toNat ≤ 254) ∧
      (e.err = false ↔ e.errcode = .none) := by
  constructor
  · rintro ⟨hpendb, hpend, hblk, hsums, -, herr, -⟩
    have hm32 : e.mode ≠ .f32 := by simp [hm]
    exact ⟨hpend hm32, hpendb (hpend hm32), hblk hm32, hsums hm, herr⟩
  · rintro ⟨hpend, hpendb, hblk, hsums, herr⟩
    exact ⟨fun _ => hpendb, fun _ => hpend, fun _ => hblk, fun _ => hsums, by simp [hm], herr, e.mode.bits_ne_three,
      e.errcode.bits_le_four⟩

theorem Engine.inv_iff_of_f32 {e : Engine} (hm : e.mode = .f32) :
    e.Inv ↔ (e.pend = false → e.pendb = 0) ∧ e.BlockBounds ∧ (e.err = false ↔ e.errcode = .none) := by
  constructor
  · rintro ⟨hpendb, -, -, -, hblock, herr, -⟩
    exact ⟨hpendb, hblock hm, herr⟩
  · rintro ⟨hpendb, hblock, herr⟩
    exact ⟨hpendb, by simp [hm], by simp [hm], by simp [hm], fun _ => hblock, herr, e.mode.bits_ne_three,
      e.errcode.bits_le_four⟩

theorem Engine.Inv.err_iff {e : Engine} (h : e.Inv) : e.err = false ↔ e.errcode = .none := by
  obtain ⟨-, -, -, -, -, herr, -⟩ := h
  exact herr

/-! ### Reset, start and the error record -/

theorem Engine.inv_reset : Engine.reset.Inv := (Engine.inv_iff_of_idle rfl).2 ⟨rfl, rfl, rfl, by decide⟩

theorem Engine.Inv.start {e : Engine} (h : e.Inv) (m : Mode) : (e.start m).Inv := by
  cases m with
  | idle => exact (Engine.inv_iff_of_idle rfl).2 ⟨rfl, rfl, rfl, h.err_iff⟩
  | f32 => exact (Engine.inv_iff_of_f32 rfl).2 ⟨fun _ => rfl, by simp [Engine.BlockBounds], h.err_iff⟩
  | f16 => exact (Engine.inv_iff_of_f16 rfl).2 ⟨rfl, rfl, rfl, by simp, h.err_iff⟩

/-- The other clauses of R40 do not speak of the error record. -/
theorem Engine.Inv.withErrors {e : Engine} (h : e.Inv) {x : Bool} {c : ErrCode} (hx : x = false ↔ c = .none) :
    Engine.Inv { e with err := x, errcode := c } := by
  obtain ⟨hpendb, hpend, hblk, hf16, hf32, -, hmode, -⟩ := h
  exact ⟨hpendb, hpend, hblk, hf16, hf32, hx, hmode, c.bits_le_four⟩

theorem Engine.Inv.raise {e : Engine} (h : e.Inv) {c : ErrCode} (hc : c ≠ .none) : (e.raise c).Inv := by
  refine h.withErrors (iff_of_false (by simp) ?_)
  split
  · intro hnone
    simp_all [h.err_iff.2 hnone]
  · exact hc

theorem Engine.Inv.clearError {e : Engine} (h : e.Inv) : e.clearError.Inv := h.withErrors (by simp)

/-! ### The Fletcher-32 word step -/

/-- One more word raises the bound on ACC1 by 65535 for each word of the block. -/
theorem acc1_bound_succ (k : Nat) :
    65535 * (k + 1) * (k + 1 + 1) / 2 = 65535 * k * (k + 1) / 2 + 65535 * (k + 1) := by
  rw [show 65535 * (k + 1) * (k + 1 + 1) = 65535 * k * (k + 1) + 65535 * (k + 1) * 2 by ring]
  exact Nat.add_mul_div_right _ _ (by decide)

theorem toNat_add_le (x y : Word) : (x + y).toNat ≤ x.toNat + y.toNat := by
  rw [BitVec.toNat_add]
  exact Nat.mod_le _ _

theorem Engine.BlockBounds.reduce (e : Engine) : e.reduce.BlockBounds := by
  have hzero : (0 : BitVec 9).toNat = 0 := rfl
  simp only [Engine.BlockBounds, Engine.reduce_blkcnt, Engine.reduce_acc0, Engine.reduce_acc1, rem32_toNat, hzero]
  omega

/-- A word that does not end the block. -/
theorem Engine.BlockBounds.addWord {e : Engine} (h : e.BlockBounds) (hk : e.blkcnt + 1 ≠ 360) (w : Half) :
    (e.addWord w).BlockBounds := by
  obtain ⟨hblk, h0, h1⟩ := h
  have hsucc : (e.blkcnt + 1).toNat = e.blkcnt.toNat + 1 := by
    rw [BitVec.toNat_add]
    exact Nat.mod_eq_of_lt (by simp; omega)
  have hne : e.blkcnt.toNat + 1 ≠ 360 := fun heq => hk (BitVec.eq_of_toNat_eq (hsucc.trans heq))
  have hw : (zext32 w).toNat ≤ 65535 := by
    rw [zext32_toNat]
    exact Nat.le_of_lt_succ w.isLt
  have hacc0 := toNat_add_le e.acc0 (zext32 w)
  have hacc1 := toNat_add_le e.acc1 (e.acc0 + zext32 w)
  have hbound := acc1_bound_succ e.blkcnt.toNat
  simp only [Engine.BlockBounds, Engine.addWord_blkcnt, Engine.addWord_acc0, Engine.addWord_acc1, hsucc]
  exact ⟨by omega, by omega, by omega⟩

theorem Engine.BlockBounds.wordstep {e : Engine} (h : e.BlockBounds) (w : Half) : (e.wordstep w).BlockBounds := by
  obtain ⟨-, heq⟩ | ⟨hk, heq⟩ := e.wordstep_cases w
  · rw [heq]
    exact Engine.BlockBounds.reduce _
  · rw [heq]
    exact h.addWord hk w

/-! ### Feeding a byte and finishing -/

theorem Engine.Inv.pair32 {e : Engine} (h : e.Inv) (hm : e.mode = .f32) (b : Byte) : (e.pair32 b).Inv := by
  obtain ⟨-, hblock, herr⟩ := (Engine.inv_iff_of_f32 hm).1 h
  cases hp : e.pend with
  | true =>
    rw [Engine.pair32_of_pend hp]
    have hblock' : Engine.BlockBounds { e with pend := false, pendb := 0 } := hblock
    exact (Engine.inv_iff_of_f32 (by simp [hm])).2 ⟨by simp, hblock'.wordstep _, by simpa using herr⟩
  | false =>
    rw [Engine.pair32_of_not_pend hp]
    exact (Engine.inv_iff_of_f32 (by simp [hm])).2 ⟨by simp, hblock, herr⟩

theorem Engine.Inv.step16 {e : Engine} (h : e.Inv) (hm : e.mode ≠ .f32) (b : Byte) : (e.step16 b).Inv := by
  cases hm' : e.mode with
  | idle => exact (Engine.inv_iff_of_idle (e := e.step16 b) hm').2 ((Engine.inv_iff_of_idle hm').1 h)
  | f32 => exact absurd hm' hm
  | f16 =>
    obtain ⟨hpend, hpendb, hblk, -, herr⟩ := (Engine.inv_iff_of_f16 hm').1 h
    refine (Engine.inv_iff_of_f16 (e := e.step16 b) hm').2 ⟨hpend, hpendb, hblk, ?_, herr⟩
    simp only [Engine.step16_acc0, Engine.step16_acc1, addRem16_toNat]
    omega

theorem Engine.Inv.feedbyte {e : Engine} (h : e.Inv) (b : Byte) : (e.feedbyte b).Inv := by
  have hcount : Engine.Inv { e with count := e.count + 1 } := h
  by_cases hm : e.mode = .f32
  · rw [Engine.feedbyte_f32 hm]
    exact hcount.pair32 hm b
  · rw [Engine.feedbyte_other hm]
    exact hcount.step16 hm b

theorem Engine.Inv.foldl_feedbyte {e : Engine} (h : e.Inv) (bs : List Byte) : (bs.foldl Engine.feedbyte e).Inv := by
  induction bs generalizing e with
  | nil => exact h
  | cons b bs ih => exact ih (h.feedbyte b)

@[simp] theorem Engine.flushPending_pend (e : Engine) : e.flushPending.pend = false := by
  cases hp : e.pend with
  | true => simp [Engine.flushPending_of_pend hp]
  | false => rw [Engine.flushPending_of_not_pend hp, hp]

theorem Engine.flushPending_pendb {e : Engine} (h : e.pend = false → e.pendb = 0) : e.flushPending.pendb = 0 := by
  cases hp : e.pend with
  | true => simp [Engine.flushPending_of_pend hp]
  | false => rw [Engine.flushPending_of_not_pend hp, h hp]

theorem Engine.Inv.finish {e : Engine} (h : e.Inv) : e.finish.Inv := by
  obtain ⟨hpendb, hpend, hblk, -, -, herr, -⟩ := h
  by_cases hm : e.mode = .f32
  · rw [Engine.finish_f32 hm]
    exact (Engine.inv_iff_of_idle rfl).2 ⟨by simp, Engine.flushPending_pendb hpendb, rfl, by simpa using herr⟩
  · rw [Engine.finish_other hm]
    exact (Engine.inv_iff_of_idle rfl).2 ⟨hpend hm, hpendb (hpend hm), hblk hm, herr⟩

/-! ### Commands and bus writes -/

theorem State.memfault_inv {s : State} (h : s.eng.Inv) : s.memfault.eng.Inv := by
  have hcleared : Engine.Inv
      { s.eng with mode := .idle, pend := false, pendb := 0, blkcnt := 0, acc0 := Config.freeWord s.draws,
                   acc1 := Config.freeWord (s.draws + 1), count := Config.freeWord (s.draws + 2) } :=
    (Engine.inv_iff_of_idle rfl).2 ⟨rfl, rfl, rfl, h.err_iff⟩
  exact hcleared.raise (by decide)

theorem State.feedFrom_inv {s : State} (h : s.eng.Inv) (n a : Nat) : (State.feedFrom n a s).eng.Inv := by
  rw [State.feedFrom_eng]
  exact h.foldl_feedbyte _

theorem State.csum_inv {s : State} (h : s.eng.Inv) (m : Mode) : (s.csum m).eng.Inv := by
  have hfed (n a : Nat) : (State.feedFrom n a (s.withEngine (s.eng.start m))).eng.Inv :=
    State.feedFrom_inv (h.start m) n a
  obtain ⟨-, heq⟩ | ⟨-, -, heq⟩ | ⟨-, k, -, -, -, heq⟩ := s.csum_cases m
  · rw [heq]
    exact h.raise (by decide)
  · rw [heq]
    exact (hfed _ _).finish
  · rw [heq]
    exact State.memfault_inv (hfed _ _)

theorem exec_inv (i : Instr) {s : State} (hs : s.eng.Inv) : ∃ t, exec i s = .next t ∧ t.eng.Inv := by
  have hseq : (s.raise .sequence).eng.Inv := hs.raise (by decide)
  cases i with
  | nop => exact ⟨_, exec_nop s, hs⟩
  | init32 => exact ⟨_, exec_init32 s, hs.start _⟩
  | init16 => exact ⟨_, exec_init16 s, hs.start _⟩
  | feed8 b =>
    by_cases hm : s.eng.mode = .idle
    · exact ⟨_, exec_feed8_of_idle hm b, hseq⟩
    · exact ⟨_, exec_feed8_of_open hm b, hs.feedbyte b⟩
  | feed16 w =>
    by_cases hm : s.eng.mode = .idle
    · exact ⟨_, exec_feed16_of_idle hm w, hseq⟩
    · exact ⟨_, exec_feed16_of_open hm w, (hs.feedbyte _).feedbyte _⟩
  | final =>
    by_cases hm : s.eng.mode = .idle
    · exact ⟨_, exec_final_of_idle hm, hseq⟩
    · exact ⟨_, exec_final_of_open hm, hs.finish⟩
  | csum32 => exact ⟨_, exec_csum32 s, State.csum_inv hs _⟩
  | csum16 => exact ⟨_, exec_csum16 s, State.csum_inv hs _⟩
  | clrerr => exact ⟨_, exec_clrerr s, hs.clearError⟩

theorem execute_inv (w : Word) {s : State} (hs : s.eng.Inv) : ∃ t, execute w s = .next t ∧ t.eng.Inv := by
  cases h : decode w with
  | ok i =>
    rw [execute_of_decode_ok h]
    exact exec_inv i hs
  | error r => exact ⟨_, execute_of_decode_error h s, hs.raise (by decide)⟩

theorem Engine.Inv.writeRegister {e : Engine} (h : e.Inv) (off : Nat) (v : Word) : (e.writeRegister off v).Inv := by
  unfold Engine.writeRegister
  split
  · exact h
  · exact h
  · exact h

theorem busWrite_inv (off : Nat) (v : Word) {s : State} (hs : s.eng.Inv) :
    ∃ t, busWrite off v s = .next t ∧ t.eng.Inv := by
  by_cases h : off = 0
  · subst h
    exact execute_inv v hs
  · exact ⟨_, busWrite_register h v s, hs.writeRegister off v⟩

/-! ### All engines -/

theorem State.EnginesInv.select {s t : State} {w : Nat} (hs : s.EnginesInv) (h : s.select w = some t) :
    t.EnginesInv := by
  obtain ⟨-, rfl⟩ | ⟨-, e, before, after, hothers, -, rfl⟩ := State.select_cases h
  · exact hs
  · obtain ⟨heng, hrest⟩ := hs
    rw [hothers] at hrest
    simp only [List.forall_mem_append, List.forall_mem_cons] at hrest
    obtain ⟨hbefore, he, hafter⟩ := hrest
    refine ⟨he, ?_⟩
    simp only [List.forall_mem_append, List.forall_mem_cons]
    exact ⟨hbefore, heng, hafter⟩

theorem State.EnginesInv.busWrite {off : Nat} {v : Word} {s t : State} (hs : s.EnginesInv)
    (h : busWrite off v s = .next t) : t.EnginesInv := by
  obtain ⟨heng, hothers⟩ := hs
  obtain ⟨u, hu, hinv⟩ := busWrite_inv off v heng
  obtain rfl := Host.Outcome.next.inj (hu.symm.trans h)
  obtain ⟨e, p, d, b, hnext⟩ := busWrite_around off v s
  obtain rfl := Host.Outcome.next.inj (hnext.symm.trans h)
  exact ⟨hinv, hothers⟩

theorem State.EnginesInv.complete {b a t : State} {r : Option Nat} (ha : a.EnginesInv)
    (h : State.complete b r a = .next t) : t.EnginesInv := by
  obtain ⟨heng, hothers⟩ := ha
  obtain ⟨u, ⟨-, rfl⟩ | ⟨k, -, rfl⟩, rfl⟩ := State.complete_eq_next h
  · exact ⟨heng, hothers⟩
  · exact ⟨Engine.inv_reset, hothers⟩

/-- Settles O39: by the cases of a step, each of which keeps R40 for the addressed engine and leaves the others
alone. -/
theorem everyStepKeepsTheEngineInvariants : Obligations.EveryStepKeepsTheEngineInvariants := by
  intro s t hs h
  obtain ⟨-, rfl⟩ | ⟨rest, hstep⟩ := step_cases h
  · exact hs
  have hs' : State.EnginesInv { s with inputs := rest } := hs
  obtain ⟨addr, v, d, s1, u, -, -, hsel, hwrite, hcomplete⟩ | ⟨addr, s1, -, -, hsel, rfl⟩ | ⟨st, -, rfl⟩ |
    ⟨w, s1, -, hsel, rfl⟩ := hstep
  · have hs1 : s1.EnginesInv := hs'.select hsel
    have hraced : State.EnginesInv { s1 with race := d.stores } := hs1
    exact (hraced.busWrite hwrite).complete hcomplete
  · have hs1 : s1.EnginesInv := hs'.select hsel
    exact hs1
  · exact hs
  · obtain ⟨-, hothers⟩ := hs'.select hsel
    exact ⟨Engine.inv_reset, hothers⟩

end Sys2Proof.Machine
end

section
/-! SUPPORT. The register window (spec 10_state.md R36, R37, R44): what a read returns, what the step of an access
answers, and which accesses are refused. -/

namespace Sys2Proof.Machine

/-! ### What an offset reads as -/

/-- R36 as a table: the register of each offset, 0 at CMD and at the reserved offsets. -/
theorem Engine.busRead_eq (e : Engine) (off : Nat) :
    e.busRead off =
      if off = 0x04 then e.status else if off = 0x08 then e.acc0 else if off = 0x0C then e.acc1
      else if off = 0x10 then BitVec.ofNat 32 e.blkcnt.toNat else if off = 0x14 then BitVec.ofNat 32 e.pendb.toNat
      else if off = 0x18 then e.count else if off = 0x1C then e.result
      else if off = 0x20 then e.base else if off = 0x24 then e.len else 0 := by
  unfold Engine.busRead
  split <;> simp_all

theorem Engine.busRead_reset (off : Nat) : Engine.reset.busRead off = 0 := by
  rw [Engine.busRead_eq]
  split_ifs <;> rfl

/-- Settles O37: offset by offset. -/
theorem resetZeroesEveryRegister : Obligations.ResetZeroesEveryRegister :=
  ⟨rfl, Engine.busRead_reset⟩

/-! ### The step of an access -/

theorem legalAccess_eq_false {addr bits : Nat} (h : bits ≠ 32 ∨ addr % 4 ≠ 0) : legalAccess addr bits = false := by
  simp only [legalAccess, Bool.and_eq_false_iff, decide_eq_false_iff_not]
  exact h

theorem legalAccess_offset {k off : Nat} (h : off % 4 = 0) : legalAccess (64 * k + off) 32 = true := by
  simp only [legalAccess, Bool.and_eq_true, decide_eq_true_eq]
  exact ⟨trivial, by omega⟩

theorem step_cons {s : State} {i : Input} {rest : List Input} (h : s.inputs = i :: rest) :
    step s = perform i { s with inputs := rest } := by
  simp only [step, h]

theorem performRead_illegal {s s1 : State} {addr bits : Nat} (hsel : s.select (addr / 64) = some s1)
    (hbad : bits ≠ 32 ∨ addr % 4 ≠ 0) : performRead addr bits s = .refused (.hostAccess addr bits) := by
  simp only [performRead, hsel, legalAccess_eq_false hbad, Bool.false_eq_true, if_false]

theorem performWrite_illegal {s s1 : State} {addr bits : Nat} (v : Word) (d : During)
    (hsel : s.select (addr / 64) = some s1) (hbad : bits ≠ 32 ∨ addr % 4 ≠ 0) :
    performWrite addr bits v d s = .refused (.hostAccess addr bits) := by
  simp only [performWrite, hsel, legalAccess_eq_false hbad, Bool.false_eq_true, if_false]

/-- Settles O46: the engine of the window is found, and the access is not a legal one. -/
theorem otherAccessesAreRefused : Obligations.OtherAccessesAreRefused := by
  intro s rest addr bits v d hwin hbad hin
  obtain ⟨s1, hsel⟩ := State.select_isSome (s := { s with inputs := rest }) hwin
  obtain hin | hin := hin
  · rw [step_cons hin]
    exact performRead_illegal hsel hbad
  · rw [step_cons hin]
    exact performWrite_illegal v d hsel hbad

section Offset

variable {s s1 : State} {k off : Nat} (hal : off % 4 = 0) (hlt : off < 64) (hsel : s.select k = some s1)
include hal hlt hsel

theorem performRead_offset : performRead (64 * k + off) 32 s = .next (busRead off s1) := by
  have hdiv : (64 * k + off) / 64 = k := by omega
  have hmod : (64 * k + off) % 64 = off := by omega
  simp only [performRead, hdiv, hmod, hsel, legalAccess_offset hal, if_true]

theorem performWrite_offset (v : Word) (d : During) {u : State}
    (hwrite : busWrite off v { s1 with race := d.stores } = .next u) :
    performWrite (64 * k + off) 32 v d s = State.complete s1 d.resetAfter u := by
  have hdiv : (64 * k + off) / 64 = k := by omega
  have hmod : (64 * k + off) % 64 = off := by omega
  simp only [performWrite, hdiv, hmod, hsel, legalAccess_offset hal, if_true, hwrite]

end Offset

/-- A write that nothing happens beside, and that is in time, ends with what it did. -/
theorem State.complete_quiet {b a : State} (hrace : a.race = []) (htime : a.plat.timesOut (b.byteSteps a) = false) :
    State.complete b none a = .next a := by
  cases a
  subst hrace
  simp [State.complete, htime]

theorem timesOut_of_no_limit {p : Platform} (h : p.busTimeout = none) (n : Nat) : p.timesOut n = false := by
  simp only [Platform.timesOut, h]

section QuietWrite

variable {s s1 : State} {rest : List Input} {k off : Nat} {v : Word} (hal : off % 4 = 0) (hlt : off < 64)
  (hsel : State.select { s with inputs := rest } k = some s1)
  (hin : s.inputs = .write (64 * k + off) 32 v During.quiet :: rest)
include hal hlt hsel hin

/-- A quiet write at an offset other than CMD writes the register of that offset. -/
theorem step_quiet_register (h : off ≠ 0) :
    step s = .next { s1 with race := [], eng := s1.eng.writeRegister off v } := by
  rw [step_cons hin]
  refine (performWrite_offset hal hlt hsel v During.quiet (busWrite_register h v _)).trans ?_
  refine State.complete_quiet rfl ?_
  exact (congrArg _ (Nat.sub_self _)).trans (timesOut_zero _)

/-- A quiet write at CMD executes the command word, where the platform has no limit. -/
theorem step_quiet_command (h : off = 0) (hlimit : s.plat.busTimeout = none) :
    step s = execute v { s1 with race := [] } := by
  subst h
  obtain ⟨-, -, hplat, -⟩ := State.select_around hsel
  obtain ⟨e, p, d, b, hnext⟩ := execute_around v { s1 with race := [] }
  rw [step_cons hin, hnext]
  refine (performWrite_offset hal hlt hsel v During.quiet hnext).trans ?_
  refine State.complete_quiet rfl (timesOut_of_no_limit ?_ _)
  exact (congrArg Platform.busTimeout hplat).trans hlimit

end QuietWrite

/-- Settles O45: a read by the table of R36, a write by the register or the command of its offset. -/
theorem windowReadsAndWrites : Obligations.WindowReadsAndWrites := by
  intro s s1 rest k off v hal hlt hsel
  refine ⟨fun hin => ?read, fun hin => ⟨fun h => ?base, fun h => ?len, fun h0 hb hl => ?other, fun h => ?command⟩⟩
  case read =>
    obtain ⟨-, -, -, -, hresp, -⟩ := State.select_around hsel
    rw [step_cons hin, ← Engine.busRead_eq]
    refine (performRead_offset hal hlt hsel).trans ?_
    rw [busRead, hresp]
  case base =>
    subst h
    exact step_quiet_register hal hlt hsel hin (by decide)
  case len =>
    subst h
    exact step_quiet_register hal hlt hsel hin (by decide)
  case other => rw [step_quiet_register hal hlt hsel hin h0, Engine.writeRegister_other _ v hb hl]
  case command => exact step_quiet_command hal hlt hsel hin h

end Sys2Proof.Machine
end

section
/-! SUPPORT. Buffer memory and the place of a buffer (spec 20_memory.md R51, R54, R57): what a buffer command computes
depends on the bytes read and on no register that a stream leaves alone, and every command keeps BASE and LEN. -/

namespace Sys2Proof.Machine

/-! ### The registers a stream leaves alone -/

/-- The computation of `e` beside the registers of `f` that neither `start` nor a byte writes: RESULT, BASE, LEN and
the error record. -/
def Engine.withKept (e f : Engine) : Engine :=
  { e with result := f.result, base := f.base, len := f.len, err := f.err, errcode := f.errcode }

theorem Engine.start_withKept (e f : Engine) (m : Mode) : (e.start m).withKept f = f.start m := rfl

theorem Engine.wordstep_withKept (e f : Engine) (w : Half) : (e.withKept f).wordstep w = (e.wordstep w).withKept f := by
  obtain ⟨hblk, h⟩ | ⟨hblk, h⟩ := e.wordstep_cases w
  · rw [h]
    exact if_pos hblk
  · rw [h]
    exact if_neg hblk

theorem Engine.pair32_withKept (e f : Engine) (b : Byte) : (e.withKept f).pair32 b = (e.pair32 b).withKept f := by
  cases hp : e.pend with
  | true =>
    rw [Engine.pair32_of_pend hp, ← Engine.wordstep_withKept]
    exact Engine.pair32_of_pend (e := e.withKept f) hp b
  | false =>
    rw [Engine.pair32_of_not_pend hp]
    exact Engine.pair32_of_not_pend (e := e.withKept f) hp b

theorem Engine.feedbyte_withKept (e f : Engine) (b : Byte) : (e.withKept f).feedbyte b = (e.feedbyte b).withKept f := by
  by_cases hm : e.mode = .f32
  · rw [Engine.feedbyte_f32 hm, ← Engine.pair32_withKept]
    exact Engine.feedbyte_f32 (e := e.withKept f) hm b
  · rw [Engine.feedbyte_other hm]
    exact Engine.feedbyte_other (e := e.withKept f) hm b

theorem Engine.foldl_feedbyte_withKept (e f : Engine) (bs : List Byte) :
    bs.foldl Engine.feedbyte (e.withKept f) = (bs.foldl Engine.feedbyte e).withKept f := by
  induction bs generalizing e with
  | nil => rfl
  | cons b bs ih => rw [List.foldl_cons, Engine.feedbyte_withKept, ih, List.foldl_cons]

theorem Engine.flushPending_withKept (e f : Engine) : (e.withKept f).flushPending = e.flushPending.withKept f := by
  cases hp : e.pend with
  | true =>
    rw [Engine.flushPending_of_pend hp, ← Engine.wordstep_withKept]
    exact Engine.flushPending_of_pend hp
  | false =>
    rw [Engine.flushPending_of_not_pend hp]
    exact Engine.flushPending_of_not_pend hp

/-- `finish` overwrites RESULT with the packed sums, whatever RESULT was. -/
theorem Engine.finish_withKept (e f : Engine) :
    (e.withKept f).finish = { e.finish.withKept f with result := e.finish.result } := by
  by_cases hm : e.mode = .f32
  · rw [Engine.finish_f32 hm, Engine.finish_f32 (e := e.withKept f) hm, Engine.flushPending_withKept]
    rfl
  · rw [Engine.finish_other hm]
    exact Engine.finish_other hm

/-! ### A buffer command under the caller's contract -/

/-- A range that fits and is readable is read whole, and the computation closed (43_buffer_commands.md R111). -/
theorem State.csum_of_readable {s : State} (hfits : s.rangeFits) (hread : s.rangeReadable) (m : Mode) :
    s.csum m =
      (State.feedFrom s.eng.len.toNat s.eng.base.toNat (s.withEngine (s.eng.start m))).withEngine
        (State.feedFrom s.eng.len.toNat s.eng.base.toNat (s.withEngine (s.eng.start m))).eng.finish :=
  (if_neg (Nat.not_lt.2 hfits)).trans (State.csumLoop_readable _ _ _ hread)

/-- Under the caller's contract the engine is fed the bytes of the buffer, in order, and finishes. -/
theorem State.csum_eng_of_callerContract {s : State} (h : s.callerContract) (m : Mode) :
    (s.csum m).eng = (s.buffer.foldl Engine.feedbyte (s.eng.start m)).finish := by
  obtain ⟨hfits, hread, hquiet⟩ := h
  rw [State.csum_of_readable hfits hread, State.withEngine_eng, State.feedFrom_eng, State.bytesFrom_withEngine,
    State.bytesFrom_quiet _ _ _ hquiet]
  rfl

/-- Equal buffers, wherever they lie, leave engines that differ at most in BASE, LEN and the error record. -/
theorem State.csum_eng_of_same_buffer {s s' : State} (h : s.callerContract) (h' : s'.callerContract)
    (hbuf : s.buffer = s'.buffer) (m : Mode) :
    (s'.csum m).eng = { (s.csum m).eng.withKept s'.eng with result := (s.csum m).eng.result } := by
  rw [State.csum_eng_of_callerContract h, State.csum_eng_of_callerContract h', ← hbuf,
    ← Engine.start_withKept s.eng s'.eng, Engine.foldl_feedbyte_withKept, Engine.finish_withKept]

/-- Settles O25: the registers in which the two states may differ have no part in the computation. -/
theorem placeOfTheBufferDoesNotMatter : Obligations.PlaceOfTheBufferDoesNotMatter := by
  have sameSums {s s' : State} (h : s.callerContract) (h' : s'.callerContract) (hbuf : s.buffer = s'.buffer)
      (m : Mode) :
      (s.csum m).eng.result = (s'.csum m).eng.result ∧ (s.csum m).eng.acc0 = (s'.csum m).eng.acc0 ∧
        (s.csum m).eng.acc1 = (s'.csum m).eng.acc1 := by
    rw [State.csum_eng_of_same_buffer h h' hbuf]
    exact ⟨rfl, rfl, rfl⟩
  rintro s s' h h' hbuf i (rfl | rfl)
  · exact ⟨_, _, exec_csum32 s, exec_csum32 s', sameSums h h' hbuf _⟩
  · exact ⟨_, _, exec_csum16 s, exec_csum16 s', sameSums h h' hbuf _⟩

/-! ### BASE and LEN under every command -/

theorem State.feedFrom_base_len (n a : Nat) (s : State) :
    (State.feedFrom n a s).eng.base = s.eng.base ∧ (State.feedFrom n a s).eng.len = s.eng.len := by
  have hkept : (State.feedFrom n a s).eng = (State.feedFrom n a s).eng.withKept s.eng := by
    rw [State.feedFrom_eng]
    exact Engine.foldl_feedbyte_withKept s.eng s.eng _
  rw [hkept]
  exact ⟨rfl, rfl⟩

theorem State.csum_base_len (s : State) (m : Mode) :
    (s.csum m).eng.base = s.eng.base ∧ (s.csum m).eng.len = s.eng.len := by
  have hfed (n a : Nat) := State.feedFrom_base_len n a (s.withEngine (s.eng.start m))
  obtain ⟨-, h⟩ | ⟨-, -, h⟩ | ⟨-, k, -, -, -, h⟩ := s.csum_cases m
  · rw [h]
    exact ⟨rfl, rfl⟩
  · rw [h, State.withEngine_eng, Engine.finish_base, Engine.finish_len]
    exact hfed _ _
  · rw [h]
    exact hfed _ _

theorem exec_base_len {i : Instr} {s t : State} (h : exec i s = .next t) :
    t.eng.base = s.eng.base ∧ t.eng.len = s.eng.len := by
  obtain ⟨u, hu, hkept⟩ : ∃ u, exec i s = .next u ∧ u.eng.base = s.eng.base ∧ u.eng.len = s.eng.len := by
    cases i with
    | nop | init32 | init16 | clrerr => exact ⟨_, rfl, rfl, rfl⟩
    | feed8 b =>
      by_cases hm : s.eng.mode = .idle
      · exact ⟨_, exec_feed8_of_idle hm b, rfl, rfl⟩
      · exact ⟨_, exec_feed8_of_open hm b, by simp, by simp⟩
    | feed16 w =>
      by_cases hm : s.eng.mode = .idle
      · exact ⟨_, exec_feed16_of_idle hm w, rfl, rfl⟩
      · exact ⟨_, exec_feed16_of_open hm w, by simp, by simp⟩
    | final =>
      by_cases hm : s.eng.mode = .idle
      · exact ⟨_, exec_final_of_idle hm, rfl, rfl⟩
      · exact ⟨_, exec_final_of_open hm, by simp, by simp⟩
    | csum32 | csum16 => exact ⟨_, rfl, s.csum_base_len _⟩
  obtain rfl : u = t := Host.Outcome.next.inj (hu.symm.trans h)
  exact hkept

/-- Settles O33: a command changes at most the engine, the port's log, the draws and the mark, and in the engine neither
BASE nor LEN. -/
theorem noCommandWritesMemory : Obligations.NoCommandWritesMemory := by
  intro s i
  obtain ⟨e, p, d, b, h⟩ := exec_around i s
  obtain ⟨hbase, hlen⟩ := exec_base_len h
  exact ⟨_, h, fun _ => rfl, rfl, hbase, hlen, rfl, rfl, rfl, rfl, rfl, rfl⟩

end Sys2Proof.Machine
end

section
/-! SUPPORT. The decoder opcode by opcode (spec 30_encoding.md R66, R69, R70, R71): which format reads a word, when it
rejects one, and that decoding inverts encoding. An opcode is the number `w.toNat / 2 ^ 28`. -/

namespace Sys2Proof

/-! ### When a format rejects a word -/

theorem decodeZ_error_iff {w : Word} {i : Instr} : (∃ k, decodeZ w i = .error k) ↔ w.toNat % 2 ^ 28 ≠ 0 := by
  rw [ne_eq, ← low28_eq_zero, decodeZ]
  split_ifs with h <;> simpa using h

theorem decodeB_error_iff {w : Word} {f : Byte → Instr} :
    (∃ k, decodeB w f = .error k) ↔ w.toNat % 2 ^ 28 / 2 ^ 8 ≠ 0 := by
  rw [ne_eq, ← mid20_eq_zero, decodeB]
  split_ifs with h <;> simpa using h

theorem decodeH_error_iff {w : Word} {f : Half → Instr} :
    (∃ k, decodeH w f = .error k) ↔ w.toNat % 2 ^ 28 / 2 ^ 16 ≠ 0 := by
  rw [ne_eq, ← mid12_eq_zero, decodeH]
  split_ifs with h <;> simpa using h

/-! ### The format of an opcode -/

/-- R70: the opcode chooses the format that reads the word. A format Z command is encoded as its opcode alone. -/
theorem decode_cases (w : Word) :
    ((w.toNat / 2 ^ 28 ≤ 8 ∧ w.toNat / 2 ^ 28 ≠ 3 ∧ w.toNat / 2 ^ 28 ≠ 4) ∧
      ∃ i, (encode i).toNat = w.toNat / 2 ^ 28 * 2 ^ 28 ∧ decode w = decodeZ w i) ∨
    (w.toNat / 2 ^ 28 = 3 ∧ decode w = decodeB w .feed8) ∨
    (w.toNat / 2 ^ 28 = 4 ∧ decode w = decodeH w .feed16) ∨
    (9 ≤ w.toNat / 2 ^ 28 ∧ decode w = .error .reservedOpcode) := by
  unfold decode
  rw [opField_toNat]
  generalize w.toNat / 2 ^ 28 = op
  match op with
  | 0 | 1 | 2 | 5 | 6 | 7 | 8 => exact .inl ⟨by decide, _, by decide, rfl⟩
  | 3 => exact .inr (.inl ⟨rfl, rfl⟩)
  | 4 => exact .inr (.inr (.inl ⟨rfl, rfl⟩))
  | n + 9 => exact .inr (.inr (.inr ⟨Nat.le_add_left 9 n, rfl⟩))

theorem decode_of_reservedOpcode {w : Word} (h : 9 ≤ w.toNat / 2 ^ 28) : decode w = .error .reservedOpcode := by
  obtain ⟨hop, -⟩ | ⟨hop, -⟩ | ⟨hop, -⟩ | ⟨-, hd⟩ := decode_cases w
  · omega
  · omega
  · omega
  · exact hd

/-! ### Decoding inverts encoding -/

theorem encode_feed8_toNat (b : Byte) : (encode (.feed8 b)).toNat = 3 * 2 ^ 28 + b.toNat := by
  have hb := b.isLt
  change (0x300000#24 ++ b).toNat = _
  rw [BitVec.toNat_append, ← Nat.shiftLeft_add_eq_or_of_lt hb, Nat.shiftLeft_eq]
  rfl

theorem encode_feed16_toNat (h : Half) : (encode (.feed16 h)).toNat = 4 * 2 ^ 28 + h.toNat := by
  have hh := h.isLt
  change (0x4000#16 ++ h).toNat = _
  rw [BitVec.toNat_append, ← Nat.shiftLeft_add_eq_or_of_lt hh, Nat.shiftLeft_eq]
  rfl

theorem encode_of_decode_ok {w : Word} {i : Instr} (h : decode w = .ok i) : encode i = w := by
  apply BitVec.eq_of_toNat_eq
  obtain ⟨-, j, henc, hd⟩ | ⟨hop, hd⟩ | ⟨hop, hd⟩ | ⟨-, hd⟩ := decode_cases w
  · obtain ⟨hres, rfl⟩ := decodeZ_eq_ok.1 (hd.symm.trans h)
    have := low28_eq_zero.1 hres
    omega
  · obtain ⟨hres, rfl⟩ := decodeB_eq_ok.1 (hd.symm.trans h)
    have := mid20_eq_zero.1 hres
    rw [encode_feed8_toNat, BitVec.extractLsb'_toNat, Nat.shiftRight_zero]
    omega
  · obtain ⟨hres, rfl⟩ := decodeH_eq_ok.1 (hd.symm.trans h)
    have := mid12_eq_zero.1 hres
    rw [encode_feed16_toNat, BitVec.extractLsb'_toNat, Nat.shiftRight_zero]
    omega
  · cases hd.symm.trans h

theorem decode_encode (i : Instr) : decode (encode i) = .ok i := by
  cases i with
  | nop | init32 | init16 | final | csum32 | csum16 | clrerr => rfl
  | feed8 b =>
    have hw := encode_feed8_toNat b
    have hb := b.isLt
    obtain ⟨hop, -⟩ | ⟨-, hd⟩ | ⟨hop, -⟩ | ⟨hop, -⟩ := decode_cases (encode (.feed8 b))
    · omega
    · rw [hd]
      refine decodeB_eq_ok.2 ⟨mid20_eq_zero.2 (by omega), congrArg _ (BitVec.eq_of_toNat_eq ?_)⟩
      rw [BitVec.extractLsb'_toNat, Nat.shiftRight_zero]
      omega
    · omega
    · omega
  | feed16 h =>
    have hw := encode_feed16_toNat h
    have hh := h.isLt
    obtain ⟨hop, -⟩ | ⟨hop, -⟩ | ⟨-, hd⟩ | ⟨hop, -⟩ := decode_cases (encode (.feed16 h))
    · omega
    · omega
    · rw [hd]
      refine decodeH_eq_ok.2 ⟨mid12_eq_zero.2 (by omega), congrArg _ (BitVec.eq_of_toNat_eq ?_)⟩
      rw [BitVec.extractLsb'_toNat, Nat.shiftRight_zero]
      omega
    · omega

theorem decode_eq_ok_iff {w : Word} {i : Instr} : decode w = .ok i ↔ encode i = w :=
  ⟨encode_of_decode_ok, fun h => h ▸ decode_encode i⟩

/-! ### The rows of the opcode map -/

theorem mnemonic_injective_on_opcodeMap :
    ∀ r ∈ opcodeMap, ∀ r' ∈ opcodeMap, r.mnemonic = r'.mnemonic → r = r' := by decide

theorem fitsItsRow (i : Instr) : Laws.FitsItsRow.Statement i := by
  cases i with
  | nop => exact Laws.FitsItsRow.nop
  | init32 => exact Laws.FitsItsRow.init32
  | init16 => exact Laws.FitsItsRow.init16
  | feed8 b => exact Laws.FitsItsRow.feed8 b
  | feed16 h => exact Laws.FitsItsRow.feed16 h
  | final => exact Laws.FitsItsRow.final
  | csum32 => exact Laws.FitsItsRow.csum32
  | csum16 => exact Laws.FitsItsRow.csum16
  | clrerr => exact Laws.FitsItsRow.clrerr

/-- A command's word matches every row that carries its mnemonic. -/
theorem encode_matches {r : OpcodeRow} (hr : r ∈ opcodeMap) {i : Instr} (hi : i.mnemonic = r.mnemonic) :
    encode i &&& r.mask = r.pattern := by
  obtain ⟨-, r', hr', hname, hmatch⟩ := fitsItsRow i
  obtain rfl := mnemonic_injective_on_opcodeMap r' hr' r hr (hname.trans hi)
  exact hmatch

/-- A mask of all bits from `k` up fixes those bits of a word that matches. -/
theorem toNat_div_of_and_eq {w m p : Word} (k : Nat) (hm : m >>> k = BitVec.allOnes 32 >>> k) (h : w &&& m = p) :
    w.toNat / 2 ^ k = p.toNat / 2 ^ k := by
  have hshift : w >>> k = p >>> k := by
    rw [← h, BitVec.ushiftRight_and_distrib, hm, ← BitVec.ushiftRight_and_distrib, BitVec.and_allOnes]
  simpa only [BitVec.toNat_ushiftRight, Nat.shiftRight_eq_div_pow] using congrArg BitVec.toNat hshift

theorem encode_feed8_of_matches {w : Word} (h : w &&& 0xFFFFFF00 = 0x30000000) :
    encode (.feed8 (w.extractLsb' 0 8)) = w := by
  have hdiv : w.toNat / 2 ^ 8 = 0x300000 := toNat_div_of_and_eq 8 (by decide) h
  apply BitVec.eq_of_toNat_eq
  rw [encode_feed8_toNat, BitVec.extractLsb'_toNat, Nat.shiftRight_zero]
  omega

theorem encode_feed16_of_matches {w : Word} (h : w &&& 0xFFFF0000 = 0x40000000) :
    encode (.feed16 (w.extractLsb' 0 16)) = w := by
  have hdiv : w.toNat / 2 ^ 16 = 0x4000 := toNat_div_of_and_eq 16 (by decide) h
  apply BitVec.eq_of_toNat_eq
  rw [encode_feed16_toNat, BitVec.extractLsb'_toNat, Nat.shiftRight_zero]
  omega

/-- A word that matches a row is the word of a command with the row's mnemonic. -/
theorem exists_encode_of_matches {w : Word} {r : OpcodeRow} (hr : r ∈ opcodeMap) (h : w &&& r.mask = r.pattern) :
    ∃ i, encode i = w ∧ i.mnemonic = r.mnemonic := by
  have whole {p : Word} (hp : w &&& BitVec.allOnes 32 = p) : p = w := hp.symm.trans BitVec.and_allOnes
  simp only [opcodeMap, List.mem_cons, List.not_mem_nil, or_false] at hr
  obtain rfl | rfl | rfl | rfl | rfl | rfl | rfl | rfl | rfl := hr
  · exact ⟨.nop, whole h, rfl⟩
  · exact ⟨.init32, whole h, rfl⟩
  · exact ⟨.init16, whole h, rfl⟩
  · exact ⟨.feed8 _, encode_feed8_of_matches h, rfl⟩
  · exact ⟨.feed16 _, encode_feed16_of_matches h, rfl⟩
  · exact ⟨.final, whole h, rfl⟩
  · exact ⟨.csum32, whole h, rfl⟩
  · exact ⟨.csum16, whole h, rfl⟩
  · exact ⟨.clrerr, whole h, rfl⟩

/-- Settles O3: the words that match a row are the encodings of the commands with its mnemonic, and decoding inverts
encoding. -/
theorem opcodeMapDecidesTheCommand : Obligations.OpcodeMapDecidesTheCommand := by
  intro w
  refine ⟨fun r hr => ⟨fun hmatch => ?_, ?_⟩, decode_of_reservedOpcode⟩
  · obtain ⟨i, henc, hname⟩ := exists_encode_of_matches hr hmatch
    exact ⟨i, decode_eq_ok_iff.2 henc, hname⟩
  · rintro ⟨i, hd, hname⟩
    rw [← decode_eq_ok_iff.1 hd]
    exact encode_matches hr hname

/-! ### ILLEGAL words -/

/-- R71: the reserved opcodes, and the reserved-zero bits of each format. -/
theorem decode_error_iff {w : Word} :
    (∃ k, decode w = .error k) ↔
      9 ≤ w.toNat / 2 ^ 28 ∨
      (w.toNat / 2 ^ 28 = 3 ∧ w.toNat % 2 ^ 28 / 2 ^ 8 ≠ 0) ∨
      (w.toNat / 2 ^ 28 = 4 ∧ w.toNat % 2 ^ 28 / 2 ^ 16 ≠ 0) ∨
      (w.toNat / 2 ^ 28 ≤ 8 ∧ w.toNat / 2 ^ 28 ≠ 3 ∧ w.toNat / 2 ^ 28 ≠ 4 ∧ w.toNat % 2 ^ 28 ≠ 0) := by
  obtain ⟨hop, i, -, hd⟩ | ⟨hop, hd⟩ | ⟨hop, hd⟩ | ⟨hop, hd⟩ := decode_cases w
  · rw [hd, decodeZ_error_iff]
    omega
  · rw [hd, decodeB_error_iff]
    omega
  · rw [hd, decodeH_error_iff]
    omega
  · exact iff_of_true ⟨_, hd⟩ (.inl hop)

/-- Settles O5: an ILLEGAL word executes as the record of the error. -/
theorem illegalWordsOnlyRecordTheError : Obligations.IllegalWordsOnlyRecordTheError := by
  intro w s
  refine ⟨decode_error_iff, ?_⟩
  rintro ⟨k, hd⟩
  exact Machine.execute_of_decode_error hd s

end Sys2Proof
end

section
/-! SUPPORT. The reference checksums (spec 40_algorithms.md R80 to R95): the sums of a run of words or bytes in closed
form, that a reduction may be put off to the end, and what follows for the results. -/

namespace Sys2Proof.Machine

/-! ### Sums in closed form and their reduction -/

@[simp] theorem plainSum_nil : plainSum [] = 0 := rfl
@[simp] theorem plainSum_cons (x : Nat) (xs : List Nat) : plainSum (x :: xs) = x + plainSum xs := rfl
@[simp] theorem weightedSum_nil : weightedSum [] = 0 := rfl
@[simp] theorem weightedSum_cons (x : Nat) (xs : List Nat) :
    weightedSum (x :: xs) = (xs.length + 1) * x + weightedSum xs := rfl

/-- The unreduced sums after the numbers `xs`, from the sums `c`, as R91 writes them. -/
def closedSums (xs : List Nat) (c : Nat × Nat) : Nat × Nat :=
  (c.1 + plainSum xs, c.2 + xs.length * c.1 + weightedSum xs)

/-- Both sums modulo `m`: R84 is `m = 65535`, R87 `m = 255`. -/
def reduceBy (m : Nat) (c : Nat × Nat) : Nat × Nat := (c.1 % m, c.2 % m)

theorem reduceSums_eq_reduceBy (c : Nat × Nat) : reduceSums c = reduceBy 65535 c := rfl

@[simp] theorem closedSums_nil (c : Nat × Nat) : closedSums [] c = c := by simp [closedSums]

theorem closedSums_zero (xs : List Nat) : closedSums xs (0, 0) = (plainSum xs, weightedSum xs) := by simp [closedSums]

/-- Adding one number is the loop body of R83 and R87. -/
theorem closedSums_cons (x : Nat) (xs : List Nat) (c : Nat × Nat) :
    closedSums (x :: xs) c = closedSums xs (c.1 + x, c.2 + (c.1 + x)) := by
  ext
  · simp only [closedSums, plainSum_cons]
    ring
  · simp only [closedSums, weightedSum_cons, List.length_cons]
    ring

/-- The sums are linear in where they start, so a reduction before the last one changes nothing (R91). -/
theorem reduceBy_closedSums_reduceBy (m : Nat) (xs : List Nat) (c : Nat × Nat) :
    reduceBy m (closedSums xs (reduceBy m c)) = reduceBy m (closedSums xs c) := by
  have h₁ : c.1 % m ≡ c.1 [MOD m] := Nat.mod_modEq c.1 m
  have h₂ : c.2 % m ≡ c.2 [MOD m] := Nat.mod_modEq c.2 m
  ext
  · exact h₁.add_right _
  · exact (h₂.add (h₁.mul_left _)).add_right _

/-! ### Fletcher-32 -/

theorem sumWords_eq_closedSums (ws : List Half) (c : Nat × Nat) :
    sumWords ws c = closedSums (ws.map BitVec.toNat) c := by
  induction ws generalizing c with
  | nil => exact (closedSums_nil c).symm
  | cons w ws ih =>
    rw [List.map_cons, closedSums_cons]
    exact ih _

theorem sumWords_append (ws vs : List Half) (c : Nat × Nat) : sumWords (ws ++ vs) c = sumWords vs (sumWords ws c) :=
  List.foldl_append

theorem reduceSums_sumWords_reduceSums (ws : List Half) (c : Nat × Nat) :
    reduceSums (sumWords ws (reduceSums c)) = reduceSums (sumWords ws c) := by
  simp only [sumWords_eq_closedSums, reduceSums_eq_reduceBy, reduceBy_closedSums_reduceBy]

/-- The block loop of R82 is one reduction of the plain sums. -/
theorem sumBlocks_reduceSums {n : Nat} {ws : List Half} (hn : ws.length ≤ n) (c : Nat × Nat) :
    sumBlocks n ws (reduceSums c) = reduceSums (sumWords ws c) := by
  induction n generalizing ws c with
  | zero =>
    rw [List.eq_nil_of_length_eq_zero (Nat.le_zero.1 hn)]
    rfl
  | succ n ih =>
    rw [sumBlocks]
    split
    next hnil => rw [hnil]; rfl
    next hne =>
      have hdrop : (ws.drop Config.blockWords).length ≤ n := by
        have hpos := List.length_pos_iff.2 hne
        rw [List.length_drop, Config.blockWords]
        omega
      rw [ih hdrop, ← sumWords_append, List.take_append_drop, reduceSums_sumWords_reduceSums]

theorem fletcher32Sums_eq_reduceSums (bs : List Byte) :
    fletcher32Sums bs = reduceSums (sumWords (wordView bs) (0, 0)) :=
  sumBlocks_reduceSums (le_refl _) (0, 0)

/-- R91 for the sums of Fletcher-32. -/
theorem fletcher32Sums_closed (bs : List Byte) :
    fletcher32Sums bs =
      (plainSum ((wordView bs).map BitVec.toNat) % 65535, weightedSum ((wordView bs).map BitVec.toNat) % 65535) := by
  rw [fletcher32Sums_eq_reduceSums, sumWords_eq_closedSums, closedSums_zero, reduceSums]

/-- Reductions after any blocks of words, of any sizes, leave the reduced sums as they are (R91). -/
theorem reduceSums_foldl_blocks (blocks : List (List Half)) (c : Nat × Nat) :
    reduceSums (blocks.foldl (fun c ws => reduceSums (sumWords ws c)) c) = reduceSums (sumWords blocks.flatten c) := by
  induction blocks generalizing c with
  | nil => rfl
  | cons ws blocks ih =>
    rw [List.foldl_cons, ih, reduceSums_sumWords_reduceSums, List.flatten_cons, sumWords_append]

/-! ### Fletcher-16 -/

/-- The loop body of R87: each sum is reduced as it is formed. -/
def addByteReduced (c : Nat × Nat) (b : Byte) : Nat × Nat :=
  ((c.1 + b.toNat) % 255, (c.2 + (c.1 + b.toNat) % 255) % 255)

theorem fletcher16Sums_eq_foldl (bs : List Byte) : fletcher16Sums bs = bs.foldl addByteReduced (0, 0) := rfl

theorem addByteReduced_reduceBy (c : Nat × Nat) (b : Byte) :
    addByteReduced (reduceBy 255 c) b = reduceBy 255 (c.1 + b.toNat, c.2 + (c.1 + b.toNat)) := by
  simp only [addByteReduced, reduceBy, Nat.mod_add_mod, Nat.add_mod_mod]

/-- The loop of R87, which reduces after every byte, is one reduction of the plain sums. -/
theorem foldl_addByteReduced_reduceBy (bs : List Byte) (c : Nat × Nat) :
    bs.foldl addByteReduced (reduceBy 255 c) = reduceBy 255 (closedSums (bs.map BitVec.toNat) c) := by
  induction bs generalizing c with
  | nil => rw [List.map_nil, closedSums_nil, List.foldl_nil]
  | cons b bs ih => rw [List.map_cons, closedSums_cons, List.foldl_cons, addByteReduced_reduceBy, ih]

/-- R91 for the sums of Fletcher-16. -/
theorem fletcher16Sums_closed (bs : List Byte) :
    fletcher16Sums bs = (plainSum (bs.map BitVec.toNat) % 255, weightedSum (bs.map BitVec.toNat) % 255) :=
  calc fletcher16Sums bs
    _ = bs.foldl addByteReduced (reduceBy 255 (0, 0)) := fletcher16Sums_eq_foldl bs
    _ = reduceBy 255 (closedSums (bs.map BitVec.toNat) (0, 0)) := foldl_addByteReduced_reduceBy bs (0, 0)
    _ = _ := by rw [closedSums_zero, reduceBy]

/-- Settles O26: both checksums are one reduction of the plain and weighted sums, and a reduction may be put off. -/
theorem referenceHasTheClosedForms : Obligations.ReferenceHasTheClosedForms := by
  refine ⟨fun bs => ⟨?_, ?_⟩, fun bs blocks hsplit => ⟨?_, ?_⟩⟩
  · rw [fletcher32, fletcher32Sums_closed]
  · rw [fletcher16, fletcher16Sums_closed]
  · rw [reduceSums_foldl_blocks, hsplit, fletcher32Sums_eq_reduceSums]
  · exact (fletcher32Sums_eq_reduceSums bs).symm

/-! ### Odd lengths -/

/-- The word view pads an odd last byte with a zero high byte (R81), which is the word of the padded buffer. -/
theorem wordView_append_zero (bs : List Byte) (hodd : bs.length % 2 = 1) : wordView (bs ++ [0]) = wordView bs := by
  induction bs using wordView.induct with
  | case1 => cases hodd
  | case2 b => rfl
  | case3 lo hi rest ih =>
    have hrest : rest.length % 2 = 1 := by simpa [Nat.add_assoc] using hodd
    simp only [List.cons_append, wordView, ih hrest]

theorem fletcher32_congr_wordView {bs bs' : List Byte} (h : wordView bs = wordView bs') :
    fletcher32 bs = fletcher32 bs' := by
  rw [fletcher32, fletcher32, fletcher32Sums, fletcher32Sums, h]

/-- Settles O28: the padded buffer has the same word view; the single byte 01 tells the two Fletcher-16 values apart. -/
theorem oddLengthIsZeroPadded : Obligations.OddLengthIsZeroPadded := by
  refine ⟨fun bs hodd => fletcher32_congr_wordView (wordView_append_zero bs hodd).symm, ⟨[0x01], rfl, ?_⟩, rfl, rfl⟩
  decide

/-! ### The halves of a result -/

theorem fletcher32Sums_le (bs : List Byte) : (fletcher32Sums bs).1 ≤ 65534 ∧ (fletcher32Sums bs).2 ≤ 65534 := by
  rw [fletcher32Sums_closed]
  constructor <;> exact Nat.le_of_lt_succ (Nat.mod_lt _ (by decide))

theorem fletcher16Sums_le (bs : List Byte) : (fletcher16Sums bs).1 ≤ 254 ∧ (fletcher16Sums bs).2 ≤ 254 := by
  rw [fletcher16Sums_closed]
  constructor <;> exact Nat.le_of_lt_succ (Nat.mod_lt _ (by decide))

/-- The packing of R85 and R88: two sums that fit `n` bits stand side by side in `n + n` bits. -/
theorem toNat_ofNat_packed {n hi lo : Nat} (hhi : hi < 2 ^ n) (hlo : lo < 2 ^ n) :
    (BitVec.ofNat (n + n) ((hi <<< n) ||| lo)).toNat = hi * 2 ^ n + lo := by
  have hfits : hi * 2 ^ n + lo < 2 ^ (n + n) :=
    calc hi * 2 ^ n + lo < (hi + 1) * 2 ^ n := by linarith
      _ ≤ 2 ^ n * 2 ^ n := Nat.mul_le_mul_right _ hhi
      _ = 2 ^ (n + n) := (pow_add 2 n n).symm
  rw [BitVec.toNat_ofNat, ← Nat.shiftLeft_add_eq_or_of_lt hlo, Nat.shiftLeft_eq, Nat.mod_eq_of_lt hfits]

theorem fletcher32_toNat (bs : List Byte) :
    (fletcher32 bs).toNat = (fletcher32Sums bs).2 * 65536 + (fletcher32Sums bs).1 := by
  obtain ⟨h₁, h₂⟩ := fletcher32Sums_le bs
  exact toNat_ofNat_packed (n := 16) (by omega) (by omega)

theorem fletcher16_toNat (bs : List Byte) :
    (fletcher16 bs).toNat = (fletcher16Sums bs).2 * 256 + (fletcher16Sums bs).1 := by
  obtain ⟨h₁, h₂⟩ := fletcher16Sums_le bs
  exact toNat_ofNat_packed (n := 8) (by omega) (by omega)

/-- Settles O29: the sums are remainders, so they fit their halves of the result, and a multiple of 65535 leaves 0. -/
theorem resultsAreFullyReduced : Obligations.ResultsAreFullyReduced := by
  refine ⟨fun bs => ?_, fun bs hzero => ?_, by decide, by decide⟩
  · obtain ⟨h₁, h₂⟩ := fletcher32Sums_le bs
    obtain ⟨k₁, k₂⟩ := fletcher16Sums_le bs
    exact ⟨h₁, h₂, fletcher32_toNat bs, k₁, k₂, fletcher16_toNat bs⟩
  · rw [fletcher32Sums_closed]
    exact hzero

end Sys2Proof.Machine
end

section
/-! SUPPORT. The control commands (spec 41_control_commands.md): their words and the words of their opcodes that are
ILLEGAL, commands one after the other, what holds throughout a stream, and the place of the fields in STATUS. -/

namespace Sys2Proof.Machine

/-! ### Words of a format Z opcode -/

/-- R71: a word of a format Z opcode with a 1 in [27:0] is rejected for its reserved bits. -/
theorem decode_of_reservedBits {w : Word} (hop : w.toNat / 2 ^ 28 ≤ 8) (h3 : w.toNat / 2 ^ 28 ≠ 3)
    (h4 : w.toNat / 2 ^ 28 ≠ 4) (hlow : w.toNat % 2 ^ 28 ≠ 0) : decode w = .error .reservedBits := by
  obtain ⟨-, i, -, hd⟩ | ⟨h, -⟩ | ⟨h, -⟩ | ⟨h, -⟩ := decode_cases w
  · exact hd.trans (if_neg (mt low28_eq_zero.1 hlow))
  · exact absurd h h3
  · exact absurd h h4
  · omega

/-- R70: only the word of a command decodes to it. -/
theorem decode_eq_ok_iff_eq_encode {w : Word} {i : Instr} : decode w = .ok i ↔ w = encode i :=
  decode_eq_ok_iff.trans eq_comm

/-- Settles O8: executing the zero word is executing NOP; any other word of opcode 0 has a reserved bit set. -/
theorem nopChangesNothing : Obligations.NopChangesNothing := by
  intro s w
  refine ⟨exec_nop s, execute_of_decode_ok (decode_encode .nop) s, decode_eq_ok_iff_eq_encode, fun hop hw => ?_⟩
  have hne : w.toNat ≠ 0 := fun h => hw (BitVec.eq_of_toNat_eq h)
  have hd : decode w = .error .reservedBits :=
    decode_of_reservedBits (by omega) (by omega) (by omega) (by omega)
  exact ⟨hd, execute_of_decode_error hd s⟩

/-! ### Commands one after the other -/

theorem runCommands_cons_of_next {i : Instr} {s t : State} (h : exec i s = .next t) (is : List Instr) :
    runCommands (i :: is) s = runCommands is t := by
  simp only [runCommands, h]

theorem runCommands_singleton (i : Instr) (s : State) : runCommands [i] s = exec i s := by
  obtain ⟨_, _, _, _, h⟩ := exec_around i s
  rw [runCommands_cons_of_next h, h, runCommands]

/-- An empty stream closes with RESULT 0 (R98, R101). -/
theorem Engine.finish_start_f32_result (e : Engine) : (e.start .f32).finish.result = 0 := by
  rw [Engine.finish_f32 (e.start_mode _), Engine.flushPending_of_not_pend (e.start_pend _)]
  simp only [Engine.close_result, Engine.reduce_acc0, Engine.reduce_acc1, Engine.start_acc0, Engine.start_acc1]
  decide

/-- Settles O9: INIT32 is `start(F32)`, and finishing at once packs two zero sums. -/
theorem init32OpensAFletcher32Stream : Obligations.Init32OpensAFletcher32Stream := by
  intro s w
  refine ⟨exec_init32 s, decode_eq_ok_iff_eq_encode, s.withEngine (s.eng.start .f32).finish, ?_,
    s.eng.finish_start_f32_result⟩
  rw [runCommands_cons_of_next (exec_init32 s), runCommands_singleton]
  exact exec_final_of_open (by simp)

/-! ### What holds throughout a stream -/

section Stream

variable {P : Engine → Prop} (hopen : ∀ e, P e → e.mode ≠ .idle) (hfeed : ∀ e b, P e → P (e.feedbyte b))
  (hclear : ∀ e, P e → P e.clearError)
include hopen hfeed hclear

/-- What the feeding of a byte and the clearing of the error record keep, a command inside an open stream keeps. -/
theorem exec_mayFeed_keeps {i : Instr} (hi : mayFeed i = true) {s : State} (hs : P s.eng) :
    ∃ t, exec i s = .next t ∧ P t.eng := by
  cases i with
  | nop => exact ⟨s, exec_nop s, hs⟩
  | feed8 b => exact ⟨_, exec_feed8_of_open (hopen _ hs) b, hfeed _ _ hs⟩
  | feed16 w => exact ⟨_, exec_feed16_of_open (hopen _ hs) w, hfeed _ _ (hfeed _ _ hs)⟩
  | clrerr => exact ⟨_, exec_clrerr s, hclear _ hs⟩
  | init32 | init16 | final | csum32 | csum16 => cases hi

/-- The same for all the commands of a stream (42_stream_commands.md R110). -/
theorem runCommands_mayFeed_keeps {cmds : List Instr} (hcmds : ∀ c ∈ cmds, mayFeed c = true) {s : State}
    (hs : P s.eng) : ∃ t, runCommands cmds s = .next t ∧ P t.eng := by
  induction cmds generalizing s with
  | nil => exact ⟨s, rfl, hs⟩
  | cons c cs ih =>
    obtain ⟨hc, hcs⟩ := List.forall_mem_cons.1 hcmds
    obtain ⟨t, ht, hPt⟩ := exec_mayFeed_keeps hopen hfeed hclear hc hs
    rw [runCommands_cons_of_next ht]
    exact ih hcs hPt

end Stream

/-- A Fletcher-16 stream is open, and no block is counted (R99). -/
abbrev Engine.StreamsF16 (e : Engine) : Prop := e.mode = .f16 ∧ e.blkcnt = 0

theorem Engine.StreamsF16.feedbyte {e : Engine} (h : e.StreamsF16) (b : Byte) : (e.feedbyte b).StreamsF16 := by
  obtain ⟨hmode, hblk⟩ := h
  rw [Engine.feedbyte_other (by simp [hmode])]
  exact ⟨hmode, hblk⟩

theorem runCommands_mayFeed_f16 {cmds : List Instr} (hcmds : ∀ c ∈ cmds, mayFeed c = true) {s : State}
    (hs : s.eng.StreamsF16) : ∃ t, runCommands cmds s = .next t ∧ t.eng.StreamsF16 :=
  runCommands_mayFeed_keeps (fun _ ⟨hmode, _⟩ => by simp [hmode]) (fun _ b h => h.feedbyte b) (fun _ h => h) hcmds hs

/-- The stream of the one byte 01 closes with RESULT 0x101 (R99, 40_algorithms.md R88). -/
theorem Engine.finish_f16_single_result (e : Engine) : ((e.start .f16).feedbyte 0x01).finish.result = 0x00000101 := by
  rw [Engine.finish_other (by simp), Engine.feedbyte_other (by simp)]
  change pack16 (addRem16 0 (addRem16 0 1).toNat) (addRem16 0 1) = 0x00000101
  decide

/-- Settles O10: INIT16 is `start(F16)`, and every command of a stream keeps MODE F16 and BLKCNT 0, by induction on the
commands. -/
theorem init16OpensAFletcher16Stream : Obligations.Init16OpensAFletcher16Stream := by
  intro s w cmds
  refine ⟨exec_init16 s, decode_eq_ok_iff_eq_encode, fun hcmds => ?_,
    s.withEngine ((s.eng.start .f16).feedbyte 0x01).finish, ?_, s.eng.finish_f16_single_result⟩
  · rw [runCommands_cons_of_next (exec_init16 s)]
    exact runCommands_mayFeed_f16 hcmds ⟨rfl, rfl⟩
  · rw [runCommands_cons_of_next (exec_init16 s), runCommands_cons_of_next (exec_feed8_of_open (by simp) _),
      runCommands_singleton]
    exact exec_final_of_open (by simp)

/-! ### The error record -/

/-- A record that is clear is left as it is (10_state.md R40). -/
theorem Engine.clearError_of_clear {e : Engine} (hinv : e.Inv) (herr : e.err = false) : e.clearError = e := by
  have hcode : e.errcode = .none := hinv.err_iff.1 herr
  rw [Engine.clearError, ← herr, ← hcode]

/-- Concatenation as arithmetic (00_scope.md R11). -/
theorem toNat_append_eq_add {m n : Nat} (x : BitVec m) (y : BitVec n) :
    (x ++ y).toNat = x.toNat * 2 ^ n + y.toNat := by
  rw [BitVec.toNat_append, ← Nat.shiftLeft_add_eq_or_of_lt y.isLt, Nat.shiftLeft_eq]

/-- STATUS as the sum of its fields (10_state.md R23). -/
theorem Engine.status_toNat (e : Engine) :
    e.status.toNat = e.mode.bits.toNat + 4 * e.pend.toNat + 8 * e.isDone.toNat + 16 * e.err.toNat +
      256 * e.errcode.bits.toNat := by
  simp only [Engine.status, toNat_append_eq_add, BitVec.toNat_ofBool, BitVec.toNat_ofNat]
  omega

/-- Clearing the error record leaves DONE, PEND and MODE, the low four bits of STATUS (10_state.md R23). -/
theorem Engine.clearError_status_toNat (e : Engine) : e.clearError.status.toNat = e.status.toNat % 16 := by
  have hmode := e.mode.bits.isLt
  have hpend := e.pend.toNat_le
  have hdone := e.isDone.toNat_le
  have hcode : ErrCode.none.bits.toNat = 0 := rfl
  simp only [Engine.status_toNat, Engine.clearError_mode, Engine.clearError_pend, Engine.clearError_isDone,
    Engine.clearError_err, Engine.clearError_errcode, hcode, Bool.toNat_false]
  omega

/-- Settles O14: CLRERR clears the record, and another word of its opcode has a reserved bit set; the low four bits of
STATUS 0x210 are 0. -/
theorem clrerrClearsOnlyTheErrorRecord : Obligations.ClrerrClearsOnlyTheErrorRecord := by
  intro s w
  refine ⟨exec_clrerr s, decode_eq_ok_iff_eq_encode, fun hop hlow => ?_, fun hinv herr => ?_,
    fun hstatus => ⟨_, exec_clrerr s, BitVec.eq_of_toNat_eq ?_⟩⟩
  · have hd : decode w = .error .reservedBits := decode_of_reservedBits (by omega) (by omega) (by omega) hlow
    exact ⟨_, execute_of_decode_error hd s, s.eng.raise_err _⟩
  · rw [exec_clrerr, Engine.clearError_of_clear hinv herr, State.withEngine_self]
  · rw [State.withEngine_eng, Engine.clearError_status_toNat, hstatus]
    rfl

end Sys2Proof.Machine
end

section
/-! SUPPORT. The stream commands (spec 42_stream_commands.md R104 to R110): one word and one byte as exact arithmetic on
the two sums, and a whole stream, to its close, as the loop of the reference checksum. -/

namespace Sys2Proof.Machine

/-- ACC0 and ACC1 as the numbers they hold, in the form the reference loop has its sums. -/
def Engine.sums (e : Engine) : Nat × Nat := (e.acc0.toNat, e.acc1.toNat)

theorem Engine.acc0_eq_ofNat {e : Engine} {c : Nat × Nat} (h : e.sums = c) : e.acc0 = BitVec.ofNat 32 c.1 := by
  rw [← h, Engine.sums, BitVec.ofNat_toNat, BitVec.setWidth_eq]

theorem Engine.acc1_eq_ofNat {e : Engine} {c : Nat × Nat} (h : e.sums = c) : e.acc1 = BitVec.ofNat 32 c.2 := by
  rw [← h, Engine.sums, BitVec.ofNat_toNat, BitVec.setWidth_eq]

theorem Engine.sums_lt (e : Engine) : e.sums.1 < 2 ^ 32 ∧ e.sums.2 < 2 ^ 32 := ⟨e.acc0.isLt, e.acc1.isLt⟩

theorem Engine.start_sums (e : Engine) (m : Mode) : (e.start m).sums = (0, 0) := rfl

theorem sumWords_cons (w : Half) (ws : List Half) (c : Nat × Nat) :
    sumWords (w :: ws) c = sumWords ws (sumWords [w] c) := rfl

/-! ### One word of a Fletcher-32 stream -/

/-- Within the bounds of R40 one more word does not wrap either sum (40_algorithms.md R92). -/
theorem Engine.BlockBounds.word_fits {e : Engine} (h : e.BlockBounds) (w : Half) :
    (sumWords [w] e.sums).1 < 2 ^ 32 ∧ (sumWords [w] e.sums).2 < 2 ^ 32 := by
  obtain ⟨hblk, h0, h1⟩ := h
  have hw : w.toNat ≤ 65535 := Nat.le_of_lt_succ w.isLt
  have hpairs : 65535 * e.blkcnt.toNat * (e.blkcnt.toNat + 1) ≤ 65535 * 359 * (359 + 1) :=
    Nat.mul_le_mul (Nat.mul_le_mul_left _ hblk) (Nat.add_le_add_right hblk 1)
  change e.acc0.toNat + w.toNat < 2 ^ 32 ∧ e.acc1.toNat + (e.acc0.toNat + w.toNat) < 2 ^ 32
  omega

theorem Engine.BlockBounds.addWord_sums {e : Engine} (h : e.BlockBounds) (w : Half) :
    (e.addWord w).sums = sumWords [w] e.sums := by
  obtain ⟨hfit0, hfit1⟩ := h.word_fits w
  have hacc0 : (e.acc0 + zext32 w).toNat = e.acc0.toNat + w.toNat := by
    rw [BitVec.toNat_add, zext32_toNat]
    exact Nat.mod_eq_of_lt hfit0
  refine Prod.ext hacc0 ?_
  change (e.acc1 + (e.acc0 + zext32 w)).toNat = e.acc1.toNat + (e.acc0.toNat + w.toNat)
  rw [BitVec.toNat_add, hacc0]
  exact Nat.mod_eq_of_lt hfit1

theorem Engine.reduce_sums (e : Engine) : e.reduce.sums = reduceSums e.sums :=
  Prod.ext (rem32_toNat e.acc0) (rem32_toNat e.acc1)

theorem Engine.wordstep_of_block_open {e : Engine} (h : e.blkcnt.toNat < 359) (w : Half) :
    e.wordstep w = e.addWord w := by
  obtain ⟨hk, -⟩ | ⟨-, heq⟩ := e.wordstep_cases w
  · bv_omega
  · exact heq

theorem Engine.wordstep_of_block_end {e : Engine} (h : e.blkcnt.toNat = 359) (w : Half) :
    e.wordstep w = (e.addWord w).reduce := by
  obtain ⟨-, heq⟩ | ⟨hk, -⟩ := e.wordstep_cases w
  · exact heq
  · bv_omega

theorem Engine.wordstep_blkcnt_toNat {e : Engine} (h : e.blkcnt.toNat ≤ 359) (w : Half) :
    (e.wordstep w).blkcnt.toNat = (e.blkcnt.toNat + 1) % 360 := by
  obtain hlt | heq := Nat.lt_or_eq_of_le h
  · rw [Engine.wordstep_of_block_open hlt, Engine.addWord_blkcnt]
    bv_omega
  · rw [Engine.wordstep_of_block_end heq, Engine.reduce_blkcnt, heq]
    rfl

/-- A word step is one turn of the reference loop (R110). -/
theorem Engine.BlockBounds.runningSums_wordstep {e : Engine} (h : e.BlockBounds) (w : Half) (ws : List Half) :
    runningSums ws (e.wordstep w).blkcnt.toNat (e.wordstep w).sums = runningSums (w :: ws) e.blkcnt.toNat e.sums := by
  have ⟨hle, _, _⟩ := h
  rw [Engine.wordstep_blkcnt_toNat hle, runningSums]
  obtain hlt | heq := Nat.lt_or_eq_of_le hle
  · have hopen : e.blkcnt.toNat + 1 ≠ Config.blockWords := by simp only [Config.blockWords]; omega
    rw [Engine.wordstep_of_block_open hlt, h.addWord_sums, Nat.mod_eq_of_lt (by omega), if_neg hopen]
    rfl
  · rw [Engine.wordstep_of_block_end heq, Engine.reduce_sums, h.addWord_sums, heq, if_pos rfl]
    rfl

/-- A reduction at the end of a block does not show in the reduced sums (40_algorithms.md R91). -/
theorem Engine.BlockBounds.reduceSums_wordstep {e : Engine} (h : e.BlockBounds) (w : Half) (ws : List Half) :
    reduceSums (sumWords ws (e.wordstep w).sums) = reduceSums (sumWords (w :: ws) e.sums) := by
  obtain ⟨-, heq⟩ | ⟨-, heq⟩ := e.wordstep_cases w
  · rw [heq, Engine.reduce_sums, h.addWord_sums, reduceSums_sumWords_reduceSums, ← sumWords_cons]
  · rw [heq, h.addWord_sums, ← sumWords_cons]

/-! ### One FEED8 -/

theorem ofNat_toNat_succ (x : Word) : BitVec.ofNat 32 (x.toNat + 1) = x + 1 := (BitVec.add_def x 1).symm

/-- A word inside a block, as the exact sums of R105. -/
theorem Engine.BlockBounds.addWord_eq {e : Engine} (h : e.BlockBounds) (w : Half) :
    e.addWord w = { e with
      acc0 := BitVec.ofNat 32 (sumWords [w] e.sums).1, acc1 := BitVec.ofNat 32 (sumWords [w] e.sums).2,
      blkcnt := BitVec.ofNat 9 (e.blkcnt.toNat + 1) } := by
  rw [← Engine.acc0_eq_ofNat (h.addWord_sums w), ← Engine.acc1_eq_ofNat (h.addWord_sums w)]
  rfl

/-- A word that ends its block, as the exact sums of R105 reduced. -/
theorem Engine.BlockBounds.addWord_reduce_eq {e : Engine} (h : e.BlockBounds) (w : Half) :
    (e.addWord w).reduce = { e with
      acc0 := BitVec.ofNat 32 (reduceSums (sumWords [w] e.sums)).1,
      acc1 := BitVec.ofNat 32 (reduceSums (sumWords [w] e.sums)).2, blkcnt := 0 } := by
  have hsums : (e.addWord w).reduce.sums = reduceSums (sumWords [w] e.sums) := by
    rw [Engine.reduce_sums, h.addWord_sums]
  rw [← Engine.acc0_eq_ofNat hsums, ← Engine.acc1_eq_ofNat hsums]
  rfl

/-- No byte pending and `n` bytes counted: the engine in which the word of a pair is summed (R107). -/
def Engine.pairTaken (e : Engine) (n : Word) : Engine := { e with count := n, pend := false, pendb := 0 }

theorem Engine.BlockBounds.pairTaken {e : Engine} (h : e.BlockBounds) (n : Word) : (e.pairTaken n).BlockBounds := h

/-- The second byte of a pair completes the word as its high byte (R104, R107). -/
theorem Engine.feedbyte_f32_of_pend {e : Engine} (hm : e.mode = .f32) (hp : e.pend = true) (b : Byte) :
    e.feedbyte b = (e.pairTaken (e.count + 1)).wordstep (concatBytes b e.pendb) := by
  rw [Engine.feedbyte_f32 hm]
  exact Engine.pair32_of_pend (e := { e with count := e.count + 1 }) hp b

/-- The first byte of a pair waits (R104, R107). -/
theorem Engine.feedbyte_f32_of_not_pend {e : Engine} (hm : e.mode = .f32) (hp : e.pend = false) (b : Byte) :
    e.feedbyte b = { e with count := e.count + 1, pend := true, pendb := b } := by
  rw [Engine.feedbyte_f32 hm]
  exact Engine.pair32_of_not_pend (e := { e with count := e.count + 1 }) hp b

/-- Settles O15: by the cases of PEND and BLKCNT; the sums fit by the bounds of R40. -/
theorem feed8InAFletcher32Stream : Obligations.Feed8InAFletcher32Stream := by
  intro s b hinv hm
  have hblock : s.eng.BlockBounds := by
    obtain ⟨-, h, -⟩ := (Engine.inv_iff_of_f32 hm).1 hinv
    exact h
  have hblock' := hblock.pairTaken (s.eng.count + 1)
  have hexec : exec (.feed8 b) s = .next (s.withEngine (s.eng.feedbyte b)) := exec_feed8_of_open (by simp [hm]) b
  simp only [← concatBytes_toNat, ofNat_toNat_succ, hexec]
  refine ⟨fun hp => ?_, fun _ => hblock.word_fits (concatBytes b s.eng.pendb), fun hp hblk => ?_, fun hp hblk => ?_⟩
  · rw [Engine.feedbyte_f32_of_not_pend hm hp]
    rfl
  · have hblk' : (s.eng.pairTaken (s.eng.count + 1)).blkcnt.toNat < 359 := hblk
    rw [Engine.feedbyte_f32_of_pend hm hp, Engine.wordstep_of_block_open hblk', hblock'.addWord_eq]
    rfl
  · have hblk' : (s.eng.pairTaken (s.eng.count + 1)).blkcnt.toNat = 359 := hblk
    rw [Engine.feedbyte_f32_of_pend hm hp, Engine.wordstep_of_block_end hblk', hblock'.addWord_reduce_eq]
    rfl

/-- One byte of a Fletcher-16 stream is one turn of the loop of R87. -/
theorem Engine.step16_sums (e : Engine) (b : Byte) : (e.step16 b).sums = addByteReduced e.sums b := by
  refine Prod.ext (addRem16_toNat e.acc0 b.toNat) ?_
  change (addRem16 e.acc1 (addRem16 e.acc0 b.toNat).toNat).toNat = _
  rw [addRem16_toNat, addRem16_toNat]
  rfl

/-- A byte of a Fletcher-16 stream, as the reduced sums of R106. -/
theorem Engine.step16_eq (e : Engine) (b : Byte) :
    e.step16 b = { e with
      acc0 := BitVec.ofNat 32 (addByteReduced e.sums b).1, acc1 := BitVec.ofNat 32 (addByteReduced e.sums b).2 } := by
  rw [← Engine.acc0_eq_ofNat (e.step16_sums b), ← Engine.acc1_eq_ofNat (e.step16_sums b)]
  rfl

/-- Settles O16: a byte is one turn of the reference loop; the bounds are those of R40 and of a remainder. -/
theorem feed8InAFletcher16Stream : Obligations.Feed8InAFletcher16Stream := by
  intro s b hinv hm
  obtain ⟨-, -, -, ⟨h0, h1⟩, -⟩ := (Engine.inv_iff_of_f16 hm).1 hinv
  have hb := b.isLt
  refine ⟨by omega, by omega, by omega, by omega, ?_⟩
  rw [exec_feed8_of_open (by simp [hm]), Engine.feedbyte_other (by simp [hm]), ofNat_toNat_succ, Engine.step16_eq]
  rfl

/-! ### The bytes of a stream -/

theorem Engine.foldl_feedbyte_mode (e : Engine) (bs : List Byte) : (bs.foldl Engine.feedbyte e).mode = e.mode := by
  induction bs generalizing e with
  | nil => rfl
  | cons b bs ih => rw [List.foldl_cons, ih, Engine.feedbyte_mode]

/-- COUNT counts the bytes mod 2^32 (10_state.md R28). -/
theorem Engine.foldl_feedbyte_count (e : Engine) (bs : List Byte) :
    (bs.foldl Engine.feedbyte e).count = e.count + BitVec.ofNat 32 bs.length := by
  induction bs generalizing e with
  | nil => simp
  | cons b bs ih =>
    rw [List.foldl_cons, ih, Engine.feedbyte_count, List.length_cons, Nat.add_comm, BitVec.ofNat_add,
      ← BitVec.add_assoc]
    rfl

theorem Engine.foldl_feedbyte_other_sums {e : Engine} (hm : e.mode ≠ .f32) (bs : List Byte) :
    (bs.foldl Engine.feedbyte e).sums = bs.foldl addByteReduced e.sums := by
  induction bs generalizing e with
  | nil => rfl
  | cons b bs ih =>
    have hsums : (e.feedbyte b).sums = addByteReduced e.sums b := by
      rw [Engine.feedbyte_other hm]
      exact Engine.step16_sums _ b
    rw [List.foldl_cons, ih (by rwa [Engine.feedbyte_mode]), hsums, List.foldl_cons]

/-- A Fletcher-32 stream is open, no byte is pending, and the block is within the bounds of R40. -/
abbrev Engine.BetweenWords (e : Engine) : Prop := e.mode = .f32 ∧ e.pend = false ∧ e.BlockBounds

theorem Engine.start_betweenWords (e : Engine) : (e.start .f32).BetweenWords :=
  ⟨rfl, rfl, by simp [Engine.BlockBounds]⟩

/-- Two bytes are one word, low byte first (20_memory.md R46). -/
theorem Engine.BetweenWords.feedbyte_feedbyte {e : Engine} (h : e.BetweenWords) (lo hi : Byte) :
    (e.feedbyte lo).feedbyte hi = (e.pairTaken (e.count + 1 + 1)).wordstep (concatBytes hi lo) := by
  obtain ⟨hm, hp, -⟩ := h
  rw [Engine.feedbyte_f32_of_not_pend hm hp]
  exact Engine.feedbyte_f32_of_pend (e := { e with count := e.count + 1, pend := true, pendb := lo }) hm rfl hi

theorem Engine.BetweenWords.word {e : Engine} (h : e.BetweenWords) (lo hi : Byte) :
    ((e.feedbyte lo).feedbyte hi).BetweenWords := by
  rw [h.feedbyte_feedbyte]
  obtain ⟨hm, -, hblock⟩ := h
  exact ⟨(Engine.wordstep_mode _ _).trans hm, Engine.wordstep_pend _ _, (hblock.pairTaken _).wordstep _⟩

/-- In the middle of a Fletcher-32 stream PEND, BLKCNT and the sums are those of the reference loop (R110), by induction
on the word view of the bytes. -/
theorem Engine.BetweenWords.foldl_feedbyte {e : Engine} (h : e.BetweenWords) (bs : List Byte) :
    (bs.foldl Engine.feedbyte e).pend = decide (bs.length % 2 = 1) ∧
    (bs.foldl Engine.feedbyte e).blkcnt.toNat = (e.blkcnt.toNat + bs.length / 2) % 360 ∧
    (bs.foldl Engine.feedbyte e).sums =
      runningSums ((wordView bs).take (bs.length / 2)) e.blkcnt.toNat e.sums := by
  induction bs using wordView.induct generalizing e with
  | case1 =>
    obtain ⟨-, hp, hle, -⟩ := h
    exact ⟨hp, (Nat.mod_eq_of_lt (Nat.lt_succ_of_le hle)).symm, rfl⟩
  | case2 b =>
    obtain ⟨hm, hp, hle, -⟩ := h
    have hhalf : [b].length / 2 = 0 := Nat.div_eq_of_lt Nat.one_lt_two
    rw [List.foldl_cons, List.foldl_nil, Engine.feedbyte_f32_of_not_pend hm hp, hhalf]
    exact ⟨rfl, (Nat.mod_eq_of_lt (Nat.lt_succ_of_le hle)).symm, rfl⟩
  | case3 lo hi rest ih =>
    obtain ⟨ihpend, ihblk, ihsums⟩ := ih (h.word lo hi)
    have hlen : (lo :: hi :: rest).length = rest.length + 2 := rfl
    have hhalf : (rest.length + 2) / 2 = rest.length / 2 + 1 := Nat.add_div_right _ (by decide)
    rw [List.foldl_cons, List.foldl_cons, ihpend, ihblk, ihsums, h.feedbyte_feedbyte, hlen, hhalf, Nat.add_mod_right]
    obtain ⟨-, -, hblock⟩ := h
    have hblock' := hblock.pairTaken (e.count + 1 + 1)
    refine ⟨rfl, ?_, hblock'.runningSums_wordstep _ _⟩
    have ⟨hle, _, _⟩ := hblock'
    rw [Engine.wordstep_blkcnt_toNat hle, Nat.mod_add_mod, Nat.add_assoc, Nat.add_comm 1]
    rfl

/-- The same from INIT32 on. -/
theorem Engine.stream32_registers (e : Engine) (bs : List Byte) :
    (bs.foldl Engine.feedbyte (e.start .f32)).pend = decide (bs.length % 2 = 1) ∧
    (bs.foldl Engine.feedbyte (e.start .f32)).blkcnt = BitVec.ofNat 9 (bs.length / 2 % 360) ∧
    (bs.foldl Engine.feedbyte (e.start .f32)).sums =
      runningSums ((wordView bs).take (bs.length / 2)) 0 (0, 0) := by
  obtain ⟨hpend, hblk, hsums⟩ := e.start_betweenWords.foldl_feedbyte bs
  have hzero : (e.start .f32).blkcnt.toNat = 0 := rfl
  rw [hzero, Nat.zero_add] at hblk
  refine ⟨hpend, ?_, hsums⟩
  rw [← hblk, BitVec.ofNat_toNat, BitVec.setWidth_eq]

/-! ### The close of a stream -/

theorem Engine.finish_f32_sums {e : Engine} (h : e.mode = .f32) : e.finish.sums = reduceSums e.flushPending.sums := by
  rw [Engine.finish_f32 h]
  exact Engine.reduce_sums _

theorem Engine.finish_other_sums {e : Engine} (h : e.mode ≠ .f32) : e.finish.sums = e.sums := by
  rw [Engine.finish_other h]
  rfl

theorem pack32_eq_ofNat (c1 c0 : Word) : pack32 c1 c0 = BitVec.ofNat 32 ((c1.toNat <<< 16) ||| c0.toNat) := by
  rw [BitVec.ofNat_or, BitVec.ofNat_toNat, BitVec.setWidth_eq]
  rfl

theorem pack16_eq_ofNat (c1 c0 : Word) : pack16 c1 c0 = BitVec.ofNat 32 ((c1.toNat <<< 8) ||| c0.toNat) := by
  rw [BitVec.ofNat_or, BitVec.ofNat_toNat, BitVec.setWidth_eq]
  rfl

theorem Engine.finish_f32_result {e : Engine} (h : e.mode = .f32) :
    e.finish.result = BitVec.ofNat 32 ((e.finish.sums.2 <<< 16) ||| e.finish.sums.1) := by
  rw [Engine.finish_f32 h]
  exact pack32_eq_ofNat _ _

theorem Engine.finish_other_result {e : Engine} (h : e.mode ≠ .f32) :
    e.finish.result = BitVec.ofNat 32 ((e.finish.sums.2 <<< 8) ||| e.finish.sums.1) := by
  rw [Engine.finish_other h]
  exact pack16_eq_ofNat _ _

/-- With the odd last byte flushed as a word of its own (R101), the reduced sums of a Fletcher-32 stream are those of
its word view, by induction on the word view. -/
theorem Engine.BetweenWords.flushPending_foldl_feedbyte_sums {e : Engine} (h : e.BetweenWords) (bs : List Byte) :
    reduceSums (bs.foldl Engine.feedbyte e).flushPending.sums = reduceSums (sumWords (wordView bs) e.sums) := by
  induction bs using wordView.induct generalizing e with
  | case1 =>
    obtain ⟨-, hp, -⟩ := h
    rw [List.foldl_nil, Engine.flushPending_of_not_pend hp]
    rfl
  | case2 b =>
    obtain ⟨hm, hp, hblock⟩ := h
    rw [List.foldl_cons, List.foldl_nil, Engine.feedbyte_f32_of_not_pend hm hp, Engine.flushPending_of_pend rfl]
    exact (hblock.pairTaken (e.count + 1)).reduceSums_wordstep (concatBytes 0 b) []
  | case3 lo hi rest ih =>
    rw [List.foldl_cons, List.foldl_cons, ih (h.word lo hi), h.feedbyte_feedbyte]
    obtain ⟨-, -, hblock⟩ := h
    exact (hblock.pairTaken _).reduceSums_wordstep _ _

/-- From INIT32 to FINAL the sums are those of the reference (R110). -/
theorem Engine.finish_stream32_sums (e : Engine) (bs : List Byte) :
    (bs.foldl Engine.feedbyte (e.start .f32)).finish.sums = fletcher32Sums bs := by
  rw [Engine.finish_f32_sums (Engine.foldl_feedbyte_mode _ _), e.start_betweenWords.flushPending_foldl_feedbyte_sums,
    fletcher32Sums_eq_reduceSums, Engine.start_sums]

theorem Engine.finish_stream32_result (e : Engine) (bs : List Byte) :
    (bs.foldl Engine.feedbyte (e.start .f32)).finish.result = fletcher32 bs := by
  rw [Engine.finish_f32_result (Engine.foldl_feedbyte_mode _ _), Engine.finish_stream32_sums]
  rfl

/-- From INIT16 to FINAL the sums are those of the reference (R110). -/
theorem Engine.finish_stream16_sums (e : Engine) (bs : List Byte) :
    (bs.foldl Engine.feedbyte (e.start .f16)).finish.sums = fletcher16Sums bs := by
  rw [Engine.finish_other_sums (by simp [Engine.foldl_feedbyte_mode]), Engine.foldl_feedbyte_other_sums (by simp)]
  rfl

/-- Two sums of 8 bits stand in the low half of the result (R88, 10_state.md R29). -/
theorem fletcher16_setWidth (bs : List Byte) :
    (fletcher16 bs).setWidth 32 = BitVec.ofNat 32 (((fletcher16Sums bs).2 <<< 8) ||| (fletcher16Sums bs).1) := by
  obtain ⟨h1, h2⟩ := fletcher16Sums_le bs
  have hlo : (fletcher16Sums bs).1 < 2 ^ 8 := by omega
  rw [← BitVec.ofNat_toNat, fletcher16_toNat, ← Nat.shiftLeft_add_eq_or_of_lt hlo, Nat.shiftLeft_eq]

theorem Engine.finish_stream16_result (e : Engine) (bs : List Byte) :
    (bs.foldl Engine.feedbyte (e.start .f16)).finish.result = (fletcher16 bs).setWidth 32 := by
  rw [Engine.finish_other_result (by simp [Engine.foldl_feedbyte_mode]), Engine.finish_stream16_sums,
    fletcher16_setWidth]

/-! ### The commands of a stream -/

/-- A command inside an open stream feeds its bytes, and touches no register of the computation besides (R110). -/
theorem exec_mayFeed_eng {c : Instr} (hc : mayFeed c = true) {s : State} (hs : s.eng.mode ≠ .idle) :
    ∃ t f, exec c s = .next t ∧ t.eng = ((streamBytes c).foldl Engine.feedbyte s.eng).withKept f := by
  cases c with
  | nop => exact ⟨s, s.eng, exec_nop s, rfl⟩
  | feed8 b => exact ⟨_, s.eng.feedbyte b, exec_feed8_of_open hs b, rfl⟩
  | feed16 w => exact ⟨_, (s.eng.feedbyte (loByte w)).feedbyte (hiByte w), exec_feed16_of_open hs w, rfl⟩
  | clrerr => exact ⟨_, s.eng.clearError, exec_clrerr s, rfl⟩
  | init32 | init16 | final | csum32 | csum16 => cases hc

/-- The commands of an open stream feed the bytes of the sequence, in command order (R110). -/
theorem runCommands_mayFeed_eng {cmds : List Instr} (hcmds : ∀ c ∈ cmds, mayFeed c = true) {s : State}
    (hs : s.eng.mode ≠ .idle) :
    ∃ t f, runCommands cmds s = .next t ∧ t.eng = ((streamOf cmds).foldl Engine.feedbyte s.eng).withKept f := by
  induction cmds generalizing s with
  | nil => exact ⟨s, s.eng, rfl, rfl⟩
  | cons c cs ih =>
    obtain ⟨hc, hcs⟩ := List.forall_mem_cons.1 hcmds
    obtain ⟨u, g, hu, hueng⟩ := exec_mayFeed_eng hc hs
    have hopen : u.eng.mode ≠ .idle := by
      rw [hueng]
      exact (Engine.foldl_feedbyte_mode _ _).trans_ne hs
    obtain ⟨t, f, ht, hteng⟩ := ih hcs hopen
    refine ⟨t, f, (runCommands_cons_of_next hu cs).trans ht, ?_⟩
    rw [hteng, hueng, Engine.foldl_feedbyte_withKept, ← List.foldl_append]
    rfl

theorem runCommands_append_of_next {is : List Instr} {s t : State} (h : runCommands is s = .next t)
    (js : List Instr) : runCommands (is ++ js) s = runCommands js t := by
  induction is generalizing s with
  | nil => rw [List.nil_append, Host.Outcome.next.inj h]
  | cons i is ih =>
    obtain ⟨_, _, _, _, hi⟩ := exec_around i s
    rw [runCommands_cons_of_next hi] at h
    rw [List.cons_append, runCommands_cons_of_next hi, ih h]

/-- Opening a stream, feeding it and closing it: RESULT, the sums and COUNT are those of `finish` upon the bytes fed. -/
theorem runCommands_stream {i : Instr} {m : Mode} (hm : m ≠ .idle) {s : State}
    (hi : exec i s = .next (s.withEngine (s.eng.start m))) {cmds : List Instr}
    (hcmds : ∀ c ∈ cmds, mayFeed c = true) :
    ∃ t, runCommands (i :: cmds ++ [.final]) s = .next t ∧
      t.eng.result = ((streamOf cmds).foldl Engine.feedbyte (s.eng.start m)).finish.result ∧
      t.eng.sums = ((streamOf cmds).foldl Engine.feedbyte (s.eng.start m)).finish.sums ∧
      t.eng.count = BitVec.ofNat 32 (streamOf cmds).length ∧ t.eng.mode = .idle ∧ t.eng.isDone = true := by
  obtain ⟨u, f, hu, hueng⟩ := runCommands_mayFeed_eng hcmds (s := s.withEngine (s.eng.start m)) hm
  have hopen : u.eng.mode ≠ .idle := by
    rw [hueng]
    exact (Engine.foldl_feedbyte_mode _ _).trans_ne hm
  have hrun : runCommands (i :: cmds ++ [.final]) s = .next (u.withEngine u.eng.finish) := by
    rw [List.cons_append, runCommands_cons_of_next hi, runCommands_append_of_next hu, runCommands_singleton,
      exec_final_of_open hopen]
  refine ⟨_, hrun, ?_⟩
  rw [State.withEngine_eng, hueng, Engine.finish_withKept]
  have hcount := (Engine.finish_count _).trans (Engine.foldl_feedbyte_count (s.eng.start m) (streamOf cmds))
  exact ⟨rfl, rfl, hcount.trans (BitVec.zero_add _), Engine.finish_mode _, Engine.finish_isDone _⟩

/-- Settles O18: the commands of a stream feed the bytes of the sequence, and feeding them is the reference loop. -/
theorem streamsAgreeWithTheReference : Obligations.StreamsAgreeWithTheReference := by
  intro s cmds hcmds
  refine ⟨?_, ?_, fun _ => ?_⟩
  · obtain ⟨t, hrun, hresult, hsums, hrest⟩ := runCommands_stream (by decide) (exec_init32 s) hcmds
    rw [Engine.finish_stream32_sums] at hsums
    exact ⟨t, hrun, hresult.trans (Engine.finish_stream32_result _ _), Engine.acc0_eq_ofNat hsums,
      Engine.acc1_eq_ofNat hsums, hrest⟩
  · obtain ⟨t, hrun, hresult, hsums, hrest⟩ := runCommands_stream (by decide) (exec_init16 s) hcmds
    rw [Engine.finish_stream16_sums] at hsums
    exact ⟨t, hrun, hresult.trans (Engine.finish_stream16_result _ _), Engine.acc0_eq_ofNat hsums,
      Engine.acc1_eq_ofNat hsums, hrest⟩
  · obtain ⟨t, f, hrun, heng⟩ :=
      runCommands_mayFeed_eng hcmds (s := s.withEngine (s.eng.start .f32)) (by simp)
    obtain ⟨hpend, hblk, hsums⟩ := s.eng.stream32_registers (streamOf cmds)
    have htsums := (congrArg Engine.sums heng).trans hsums
    obtain ⟨hfit0, hfit1⟩ := t.eng.sums_lt
    rw [htsums] at hfit0 hfit1
    exact ⟨t, (runCommands_cons_of_next (exec_init32 s) cmds).trans hrun, (congrArg Engine.pend heng).trans hpend,
      (congrArg Engine.blkcnt heng).trans hblk, hfit0, hfit1, Engine.acc0_eq_ofNat htsums,
      Engine.acc1_eq_ofNat htsums⟩

end Sys2Proof.Machine
end

section
/-! SUPPORT. The buffer commands (spec 43_buffer_commands.md R111, R114, R116, R117): the engine at the close of a
computation field by field, and a buffer command as a whole-state equation on each side of the range check. -/

namespace Sys2Proof.Machine

/-! ### The engine at the close of a computation -/

/-- `e` after a computation has closed on the sums `c`, `n` bytes and the checksum `r`: no byte pending, no block open,
and the registers that no computation writes as they were (41_control_commands.md R101). -/
def Engine.closedWith (e : Engine) (c : Nat × Nat) (n r : Word) : Engine :=
  { e with
    mode := .idle, acc0 := BitVec.ofNat 32 c.1, acc1 := BitVec.ofNat 32 c.2, blkcnt := 0, pend := false, pendb := 0,
    count := n, result := r, isDone := true }

/-- An idle engine that meets R40 holds no pending byte and no open block, so beside the kept registers of another
engine it is that engine closed. -/
theorem Engine.Inv.withKept_eq_closedWith {e : Engine} (h : e.Inv) (hmode : e.mode = .idle) (hdone : e.isDone = true)
    (f : Engine) : { e.withKept f with result := e.result } = f.closedWith e.sums e.count e.result := by
  obtain ⟨hpend, hpendb, hblk, -⟩ := (Engine.inv_iff_of_idle hmode).1 h
  rw [Engine.closedWith, ← Engine.acc0_eq_ofNat rfl, ← Engine.acc1_eq_ofNat rfl, ← hmode, ← hdone, ← hpend, ← hpendb,
    ← hblk]
  rfl

/-- Opening a computation, feeding it and closing it, from any engine: from reset the closed engine meets R40, and a
start from `e` differs only in the registers that no computation writes. -/
theorem Engine.finish_stream_eq_closedWith {e : Engine} {m : Mode} {bs : List Byte} {c : Nat × Nat} {r : Word}
    (hsums : (bs.foldl Engine.feedbyte (e.start m)).finish.sums = c)
    (hresult : (bs.foldl Engine.feedbyte (e.start m)).finish.result = r) :
    (bs.foldl Engine.feedbyte (e.start m)).finish = e.closedWith c (BitVec.ofNat 32 bs.length) r := by
  have hinv : (bs.foldl Engine.feedbyte (Engine.reset.start m)).finish.Inv :=
    ((Engine.inv_reset.start m).foldl_feedbyte bs).finish
  have hcount : (bs.foldl Engine.feedbyte (Engine.reset.start m)).finish.count = BitVec.ofNat 32 bs.length :=
    (Engine.finish_count _).trans ((Engine.foldl_feedbyte_count _ _).trans (BitVec.zero_add _))
  rw [← hsums, ← hresult, ← hcount, ← Engine.start_withKept Engine.reset e, Engine.foldl_feedbyte_withKept,
    Engine.finish_withKept]
  exact hinv.withKept_eq_closedWith (Engine.finish_mode _) (Engine.finish_isDone _) e

/-! ### A buffer command as an equation on the whole state -/

/-- The range check comes before everything else (43_buffer_commands.md R114). -/
theorem State.csum_of_wrapping {s : State} (h : 2 ^ 32 < s.eng.base.toNat + s.eng.len.toNat) (m : Mode) :
    s.csum m = s.raise .range := if_pos h

/-- A readable range is read whole, each byte once, ascending, with one draw for each raced byte. -/
theorem State.csum_around_of_readable {s : State} (hfits : s.rangeFits) (hread : s.rangeReadable) (m : Mode) :
    s.csum m = { s with
      eng := (s.csum m).eng
      portReads := s.readLog s.eng.len.toNat ++ s.portReads
      draws := s.draws + s.racedBefore s.eng.len.toNat } := by
  rw [State.csum_of_readable hfits hread, State.feedFrom_around, State.feedFrom_draws]
  rfl

theorem State.racedBefore_of_rangeQuiet {s : State} (h : s.rangeQuiet) : s.racedBefore s.eng.len.toNat = 0 :=
  List.countP_eq_zero.2 (by simpa using h)

theorem State.buffer_length (s : State) : s.buffer.length = s.eng.len.toNat := by simp [State.buffer]

theorem State.ofNat_buffer_length (s : State) : BitVec.ofNat 32 s.buffer.length = s.eng.len := by
  rw [State.buffer_length, BitVec.ofNat_toNat, BitVec.setWidth_eq]

/-- Under the caller's contract a buffer command closes on the sums and the checksum of the stream of the buffer's
bytes, with COUNT = LEN, and beside the engine only the port's log has changed (43_buffer_commands.md R116). -/
theorem State.csum_of_callerContract {s : State} (h : s.callerContract) {m : Mode} {c : Nat × Nat} {r : Word}
    (hsums : (s.buffer.foldl Engine.feedbyte (s.eng.start m)).finish.sums = c)
    (hresult : (s.buffer.foldl Engine.feedbyte (s.eng.start m)).finish.result = r) :
    s.csum m = { s with
      eng := s.eng.closedWith c s.eng.len r
      portReads := s.readLog s.eng.len.toNat ++ s.portReads } := by
  have ⟨hfits, hread, hquiet⟩ := h
  rw [State.csum_around_of_readable hfits hread, State.racedBefore_of_rangeQuiet hquiet,
    State.csum_eng_of_callerContract h, Engine.finish_stream_eq_closedWith hsums hresult, State.ofNat_buffer_length]
  rfl

/-- Settles O21: the range check fails first, so the command is the record of RANGE. -/
theorem wrappingRangeOnlyRecordsRange : Obligations.WrappingRangeOnlyRecordsRange := by
  rintro s i (rfl | rfl) hwrap
  · rw [exec_csum32, State.csum_of_wrapping hwrap]
    rfl
  · rw [exec_csum16, State.csum_of_wrapping hwrap]
    rfl

/-- Settles O19: the command closes on the stream of the buffer's bytes, whose sums and result are the reference's. -/
theorem bufferCommandsComputeTheReference : Obligations.BufferCommandsComputeTheReference := by
  intro s h
  constructor
  · rw [exec_csum32,
      State.csum_of_callerContract h (Engine.finish_stream32_sums _ _) (Engine.finish_stream32_result _ _)]
    rfl
  · rw [exec_csum16,
      State.csum_of_callerContract h (Engine.finish_stream16_sums _ _) (Engine.finish_stream16_result _ _)]
    rfl

/-- Settles O24: the buffer (R116) and the stream (R110) both give the reference checksum of the same bytes. -/
theorem sourceOfTheBytesDoesNotMatter : Obligations.SourceOfTheBytesDoesNotMatter := by
  intro s s' cmds h hcmds hbytes
  obtain ⟨hcsum32, hcsum16⟩ := bufferCommandsComputeTheReference s h
  obtain ⟨⟨t32, hrun32, hresult32, hacc032, hacc132, hcount32, -⟩,
    ⟨t16, hrun16, hresult16, hacc016, hacc116, hcount16, -⟩, -⟩ := streamsAgreeWithTheReference s' cmds hcmds
  rw [hbytes] at hresult32 hacc032 hacc132 hcount32 hresult16 hacc016 hacc116 hcount16
  rw [State.ofNat_buffer_length] at hcount32 hcount16
  exact ⟨⟨_, t32, hcsum32, hrun32, hresult32.symm, hacc032.symm, hacc132.symm, hcount32.symm⟩,
    ⟨_, t16, hcsum16, hrun16, hresult16.symm, hacc016.symm, hacc116.symm, hcount16.symm⟩⟩

end Sys2Proof.Machine
end

section
/-! SUPPORT. The error record (spec 60_exceptions.md R120, R123, R125): which operations leave it as it was, and what a
command that meets one of the checks records. -/

namespace Sys2Proof.Machine

/-! ### The error record of an engine -/

/-- The error record: ERR and ERRCODE (60_exceptions.md R123). -/
def Engine.errors (e : Engine) : Bool × ErrCode := (e.err, e.errcode)

@[simp] theorem Engine.start_errors (e : Engine) (m : Mode) : (e.start m).errors = e.errors := rfl

@[simp] theorem Engine.feedbyte_errors (e : Engine) (b : Byte) : (e.feedbyte b).errors = e.errors :=
  Prod.ext (e.feedbyte_err b) (e.feedbyte_errcode b)

@[simp] theorem Engine.finish_errors (e : Engine) : e.finish.errors = e.errors :=
  Prod.ext e.finish_err e.finish_errcode

/-- What the record is after an error depends on the record before it alone. -/
theorem Engine.raise_errors_congr {e f : Engine} (h : e.errors = f.errors) (c : ErrCode) :
    (e.raise c).errors = (f.raise c).errors := by
  obtain ⟨herr, hcode⟩ := Prod.mk.inj h
  exact Prod.ext rfl (by rw [Engine.errors, Engine.errors, Engine.raise_errcode, Engine.raise_errcode, herr, hcode])

theorem Engine.raise_errors_of_clear {e : Engine} (h : e.errors = (false, .none)) (c : ErrCode) :
    (e.raise c).errors = (true, c) := Engine.raise_errors_congr (f := Engine.reset) h c

@[simp] theorem State.memfault_errors (s : State) : s.memfault.eng.errors = (s.eng.raise .memfault).errors := rfl

@[simp] theorem State.feedFrom_errors (n a : Nat) (s : State) : (State.feedFrom n a s).eng.errors = s.eng.errors := by
  induction n generalizing a s with
  | zero => rfl
  | succ n ih => rw [State.feedFrom, ih, State.withEngine_eng, Engine.feedbyte_errors]

/-! ### The record and the mode after a buffer command -/

/-- A range that fits but is not readable ends in `memfault` (43_buffer_commands.md R115). -/
theorem State.csum_of_unreadable {s : State} (hfits : s.rangeFits) (hbad : ¬ s.rangeReadable) (m : Mode) :
    ∃ k, s.csum m = (State.feedFrom k s.eng.base.toNat (s.withEngine (s.eng.start m))).memfault := by
  obtain ⟨hwrap, -⟩ | ⟨-, hread, -⟩ | ⟨-, k, -, -, -, h⟩ := s.csum_cases m
  · exact absurd hfits (Nat.not_le.2 hwrap)
  · exact absurd hread hbad
  · exact ⟨k, h⟩

theorem State.csum_errors_of_readable {s : State} (hfits : s.rangeFits) (hread : s.rangeReadable) (m : Mode) :
    (s.csum m).eng.errors = s.eng.errors := by
  rw [State.csum_of_readable hfits hread]
  simp

theorem State.csum_errors_of_unreadable {s : State} (hfits : s.rangeFits) (hbad : ¬ s.rangeReadable) (m : Mode) :
    (s.csum m).eng.errors = (s.eng.raise .memfault).errors := by
  obtain ⟨k, h⟩ := State.csum_of_unreadable hfits hbad m
  rw [h, State.memfault_errors]
  exact Engine.raise_errors_congr (State.feedFrom_errors k _ _) _

/-- Past the range check the old stream is gone, and both ways to the end close the new one (R120). -/
theorem State.csum_mode_of_rangeFits {s : State} (hfits : s.rangeFits) (m : Mode) : (s.csum m).eng.mode = .idle := by
  by_cases hread : s.rangeReadable
  · rw [State.csum_of_readable hfits hread, State.withEngine_eng, Engine.finish_mode]
  · obtain ⟨k, h⟩ := State.csum_of_unreadable hfits hread m
    rw [h, State.memfault_eng_mode]

theorem exec_csum {i : Instr} (hi : i = .csum32 ∨ i = .csum16) (s : State) : ∃ m, exec i s = .next (s.csum m) := by
  obtain rfl | rfl := hi
  · exact ⟨_, exec_csum32 s⟩
  · exact ⟨_, exec_csum16 s⟩

theorem eq_csum_of_exec {i : Instr} (hi : i = .csum32 ∨ i = .csum16) {s t : State} (ht : exec i s = .next t) :
    ∃ m, t = s.csum m := by
  obtain ⟨m, h⟩ := exec_csum hi s
  exact ⟨m, Host.Outcome.next.inj (ht.symm.trans h)⟩

/-! ### The commands that need an open stream -/

/-- The commands that R120 checks for an open stream. -/
abbrev NeedsOpenStream (i : Instr) : Prop := i = .final ∨ (∃ b, i = .feed8 b) ∨ ∃ h, i = .feed16 h

theorem exec_of_needsOpenStream_of_idle {i : Instr} (hi : NeedsOpenStream i) {s : State} (hm : s.eng.mode = .idle) :
    exec i s = .next (s.raise .sequence) := by
  obtain rfl | ⟨b, rfl⟩ | ⟨w, rfl⟩ := hi
  · exact exec_final_of_idle hm
  · exact exec_feed8_of_idle hm b
  · exact exec_feed16_of_idle hm w

theorem exec_errors_of_needsOpenStream_of_open {i : Instr} (hi : NeedsOpenStream i) {s : State}
    (hm : s.eng.mode ≠ .idle) : ∃ t, exec i s = .next t ∧ t.eng.errors = s.eng.errors := by
  obtain rfl | ⟨b, rfl⟩ | ⟨w, rfl⟩ := hi
  · exact ⟨_, exec_final_of_open hm, Engine.finish_errors _⟩
  · exact ⟨_, exec_feed8_of_open hm b, Engine.feedbyte_errors _ _⟩
  · exact ⟨_, exec_feed16_of_open hm w, (Engine.feedbyte_errors _ _).trans (Engine.feedbyte_errors _ _)⟩

/-- FINAL closes the stream, and records SEQUENCE where there is none to close. -/
theorem exec_final_mode (s : State) : ∃ t, exec .final s = .next t ∧ t.eng.mode = .idle := by
  by_cases hm : s.eng.mode = .idle
  · exact ⟨_, exec_final_of_idle hm, hm⟩
  · exact ⟨_, exec_final_of_open hm, s.eng.finish_mode⟩

/-- Settles O11: in IDLE the command is the record of SEQUENCE, and with a stream open it works on the computation
alone; FINAL and a CSUM past its range check end in IDLE. -/
theorem sequenceErrorExactlyWhenIdle : Obligations.SequenceErrorExactlyWhenIdle := by
  refine ⟨rfl, fun s i => ⟨fun hi => ⟨exec_of_needsOpenStream_of_idle hi, fun hm => ?_⟩, ?_⟩⟩
  · obtain ⟨t, ht, herrors⟩ := exec_errors_of_needsOpenStream_of_open hi hm
    exact ⟨t, ht, Prod.mk.inj herrors⟩
  · rintro (rfl | ⟨hi, hfits⟩)
    · exact exec_final_mode s
    · obtain ⟨m, h⟩ := exec_csum hi s
      exact ⟨_, h, State.csum_mode_of_rangeFits hfits m⟩

/-! ### The order of the checks -/

section Clear

variable {s t : State} {i : Instr} (hclear : s.eng.errors = (false, .none)) (ht : exec i s = .next t)
include hclear ht

theorem errors_of_needsOpenStream_of_idle (hi : NeedsOpenStream i) (hm : s.eng.mode = .idle) :
    t.eng.errors = (true, .sequence) := by
  obtain rfl := Host.Outcome.next.inj ((exec_of_needsOpenStream_of_idle hi hm).symm.trans ht)
  exact Engine.raise_errors_of_clear hclear _

theorem errors_of_needsOpenStream_of_open (hi : NeedsOpenStream i) (hm : s.eng.mode ≠ .idle) :
    t.eng.errors = (false, .none) := by
  obtain ⟨u, hu, herrors⟩ := exec_errors_of_needsOpenStream_of_open hi hm
  obtain rfl := Host.Outcome.next.inj (hu.symm.trans ht)
  exact herrors.trans hclear

theorem errors_of_csum_of_wrapping (hi : i = .csum32 ∨ i = .csum16) (hwrap : ¬ s.rangeFits) :
    t.eng.errors = (true, .range) := by
  obtain ⟨m, rfl⟩ := eq_csum_of_exec hi ht
  rw [State.csum_of_wrapping (Nat.not_le.1 hwrap), State.raise_eng, Engine.raise_errors_of_clear hclear]

theorem errors_of_csum_of_unreadable (hi : i = .csum32 ∨ i = .csum16) (hfits : s.rangeFits)
    (hbad : ¬ s.rangeReadable) : t.eng.errors = (true, .memfault) := by
  obtain ⟨m, rfl⟩ := eq_csum_of_exec hi ht
  rw [State.csum_errors_of_unreadable hfits hbad, Engine.raise_errors_of_clear hclear]

theorem errors_of_csum_of_readable (hi : i = .csum32 ∨ i = .csum16) (hfits : s.rangeFits)
    (hread : s.rangeReadable) : t.eng.errors = (false, .none) := by
  obtain ⟨m, rfl⟩ := eq_csum_of_exec hi ht
  rw [State.csum_errors_of_readable hfits hread, hclear]

/-- NOP, INIT32, INIT16 and CLRERR have no check to fail (R125). -/
theorem errors_of_no_check (hi : i = .nop ∨ i = .init32 ∨ i = .init16 ∨ i = .clrerr) :
    t.eng.errors = (false, .none) := by
  obtain rfl | rfl | rfl | rfl := hi <;> obtain rfl := Host.Outcome.next.inj ht
  exacts [hclear, hclear, hclear, rfl]

end Clear

/-- Settles O31: the decoder's check comes first, and each command makes its own checks in the order of R125, from a
clear record. -/
theorem errorPriority : Obligations.ErrorPriority := by
  intro s w herr hcode
  have hclear : s.eng.errors = (false, .none) := Prod.ext herr hcode
  cases hd : decode w with
  | error r =>
    refine ⟨_, execute_of_decode_error hd s, fun _ => ?_, nofun⟩
    exact Prod.mk.inj (Engine.raise_errors_of_clear hclear _)
  | ok i =>
    obtain ⟨_, _, _, _, ht⟩ := exec_around i s
    refine ⟨_, (execute_of_decode_ok hd s).trans ht, nofun, ?_⟩
    rintro _ ⟨⟩
    exact ⟨fun hi hm => Prod.mk.inj (errors_of_needsOpenStream_of_idle hclear ht hi hm),
      fun hi hm => Prod.mk.inj (errors_of_needsOpenStream_of_open hclear ht hi hm),
      fun hi hwrap => Prod.mk.inj (errors_of_csum_of_wrapping hclear ht hi hwrap),
      fun hi hfits hbad => Prod.mk.inj (errors_of_csum_of_unreadable hclear ht hi hfits hbad),
      fun hi hfits hread => Prod.mk.inj (errors_of_csum_of_readable hclear ht hi hfits hread),
      fun hi => Prod.mk.inj (errors_of_no_check hclear ht hi)⟩

end Sys2Proof.Machine
end

section
/-! SUPPORT. The instances of the machine (spec 10_state.md R43, 60_exceptions.md R132): addressing one of them permutes
them, and what a step can do to the engine of a window, from which the claims on single registers follow. -/

namespace Sys2Proof.Machine

/-! ### The instances as one list -/

/-- All instances, the addressed one first. -/
def State.instances (s : State) : List Instance := ⟨s.window, s.eng⟩ :: s.others

theorem State.windows_eq_map (s : State) : s.windows = s.instances.map (·.window) := rfl

theorem State.engineAt_eq_find? (s : State) (w : Nat) :
    s.engineAt w = (s.instances.find? (fun i => decide (i.window = w))).map (·.eng) := by
  by_cases h : s.window = w <;> simp [State.engineAt, State.instances, h]

theorem find?_window_eq_some_iff {is : List Instance} (h : (is.map (·.window)).Nodup) {w : Nat} {e : Engine} :
    (is.find? (fun i => decide (i.window = w))).map (·.eng) = some e ↔ ⟨w, e⟩ ∈ is := by
  induction is with
  | nil => simp
  | cons i is ih =>
    obtain ⟨hi, his⟩ := List.nodup_cons.1 h
    obtain ⟨k, f⟩ := i
    by_cases hk : k = w
    · subst hk
      have hnot : ⟨k, e⟩ ∉ is := fun hmem => hi (List.mem_map_of_mem (f := (·.window)) hmem)
      simp [hnot, eq_comm]
    · simp [hk, ih his, Ne.symm hk]

/-- Where the windows are distinct, the engine of a window is the one that stands there, in whatever place. -/
theorem State.engineAt_eq_some_iff {s : State} (h : s.WindowsDistinct) {w : Nat} {e : Engine} :
    s.engineAt w = some e ↔ ⟨w, e⟩ ∈ s.instances := by
  rw [State.engineAt_eq_find?]
  exact find?_window_eq_some_iff (is := s.instances) h

@[simp] theorem State.engineAt_window (s : State) : s.engineAt s.window = some s.eng := if_pos rfl

/-- An engine that is not addressed stands in `others`. -/
theorem State.engineAt_congr {s t : State} (hwindow : t.window = s.window) (hothers : t.others = s.others) {w : Nat}
    (hw : s.window ≠ w) : t.engineAt w = s.engineAt w := by
  simp only [State.engineAt, hwindow, hothers, if_neg hw]

/-! ### Addressing a window -/

/-- Addressing exchanges two instances. -/
theorem State.select_instances_perm {s t : State} {w : Nat} (h : s.select w = some t) :
    t.instances.Perm s.instances := by
  obtain ⟨-, rfl⟩ | ⟨-, e, before, after, hothers, -, rfl⟩ := State.select_cases h
  · exact .refl _
  · simp only [State.instances, hothers]
    calc (⟨w, e⟩ :: (before ++ ⟨s.window, s.eng⟩ :: after)).Perm (⟨w, e⟩ :: ⟨s.window, s.eng⟩ :: (before ++ after)) :=
          List.perm_middle.cons _
      _ |>.Perm (⟨s.window, s.eng⟩ :: ⟨w, e⟩ :: (before ++ after)) := .swap _ _ _
      _ |>.Perm (⟨s.window, s.eng⟩ :: (before ++ ⟨w, e⟩ :: after)) := List.perm_middle.symm.cons _

theorem State.select_windows_perm {s t : State} {w : Nat} (h : s.select w = some t) : t.windows.Perm s.windows :=
  (State.select_instances_perm h).map Instance.window

theorem State.WindowsDistinct.select {s t : State} {w : Nat} (hs : s.WindowsDistinct) (h : s.select w = some t) :
    t.WindowsDistinct := (State.select_windows_perm h).nodup_iff.2 hs

/-- Addressing changes the engine of no window. -/
theorem State.select_engineAt {s t : State} {w : Nat} (hs : s.WindowsDistinct) (h : s.select w = some t) (k : Nat) :
    t.engineAt k = s.engineAt k := by
  ext e
  rw [State.engineAt_eq_some_iff (hs.select h), State.engineAt_eq_some_iff hs]
  exact (State.select_instances_perm h).mem_iff

/-- Beside the places of the instances, addressing changes nothing. -/
theorem State.select_eq {s t : State} {w : Nat} (h : s.select w = some t) :
    t = { s with eng := t.eng, window := w, others := t.others } := by
  obtain ⟨rfl, rfl⟩ | ⟨-, e, before, after, -, -, rfl⟩ := State.select_cases h
  · rfl
  · rfl

theorem State.select_eq_none {s : State} {w : Nat} (h : w ∉ s.windows) : s.select w = none := by
  rw [Option.eq_none_iff_forall_ne_some]
  intro t ht
  obtain ⟨hw, -⟩ := State.select_around ht
  exact h ((State.select_windows_perm ht).mem_iff.1 (hw ▸ List.mem_cons_self))

theorem State.engineAt_eq_none {s : State} {w : Nat} (h : w ∉ s.windows) : s.engineAt w = none := by
  rw [State.windows_eq_map, List.mem_map] at h
  rw [State.engineAt_eq_find?, Option.map_eq_none_iff, List.find?_eq_none]
  exact fun i hi hw => h ⟨i, hi, of_decide_eq_true hw⟩

/-- Settles O51: addressing permutes the instances, and an engine is found by its window. -/
theorem addressingFindsTheInstance : Obligations.AddressingFindsTheInstance := by
  refine fun s k hs => ⟨fun hk => ?_, fun hk => ⟨State.select_eq_none hk, State.engineAt_eq_none hk⟩⟩
  obtain ⟨t, ht⟩ := State.select_isSome hk
  obtain ⟨hwindow, -⟩ := State.select_around ht
  have hsame := State.select_engineAt hs ht
  refine ⟨t, ht, hwindow, ?_, hsame, State.select_eq ht⟩
  rw [← hsame k, ← hwindow, State.engineAt_window]

/-! ### What a step does to the instances -/

/-- What the end of a bus write leaves alone, and the stores that stand in memory after it. -/
theorem State.complete_around {b a t : State} {r : Option Nat} (h : State.complete b r a = .next t) :
    t.window = a.window ∧ t.others = a.others ∧ t.plat = a.plat ∧ t.mem = a.mem.writeAll a.race := by
  obtain ⟨u, ⟨-, rfl⟩ | ⟨k, -, rfl⟩, rfl⟩ := State.complete_eq_next h
  · exact ⟨rfl, rfl, rfl, rfl⟩
  · exact ⟨rfl, rfl, rfl, rfl⟩

/-- The registers at the end of a bus write: what the write left, or those of reset where reset came meanwhile. -/
theorem State.complete_eng {b a t : State} {r : Option Nat} (h : State.complete b r a = .next t) :
    (r = none ∧ t.eng = a.eng) ∨ (r ≠ none ∧ t.eng = Engine.reset) := by
  obtain ⟨u, ⟨rfl, rfl⟩ | ⟨k, rfl, rfl⟩, rfl⟩ := State.complete_eq_next h
  · exact .inl ⟨rfl, rfl⟩
  · exact .inr ⟨nofun, rfl⟩

/-- What a bus write leaves alone, from its start to its end. -/
theorem busWrite_complete_around {off : Nat} {v : Word} {stores : List Store} {s u t : State} {r : Option Nat}
    (hwrite : busWrite off v { s with race := stores } = .next u) (h : State.complete s r u = .next t) :
    t.window = s.window ∧ t.others = s.others ∧ t.plat = s.plat ∧ t.mem = s.mem.writeAll stores := by
  obtain ⟨e, p, d, b, hnext⟩ := busWrite_around off v { s with race := stores }
  obtain rfl := Host.Outcome.next.inj (hnext.symm.trans hwrite)
  exact State.complete_around h

/-- The input is a 32-bit write into window `w` that leads the engine there from `e` to `e'`: by the bus write alone
(10_state.md R36), or to the registers of reset where reset came meanwhile (70_reset_and_hazards.md R135). -/
def WritesWindow (inputs : List Input) (w : Nat) (e e' : Engine) : Prop :=
  ∃ addr v d rest, inputs = .write addr 32 v d :: rest ∧ addr / 64 = w ∧
    ((d.resetAfter = none ∧ ∃ s u, s.eng = e ∧ busWrite (addr % 64) v s = .next u ∧ u.eng = e') ∨
      (d.resetAfter ≠ none ∧ e' = Engine.reset))

/-- All that a step can do to the engine of a window: nothing, reset it, or carry out a write into its window. -/
theorem step_engineAt_cases {s t : State} (hs : s.WindowsDistinct) (h : step s = .next t) (w : Nat) :
    t.engineAt w = s.engineAt w ∨
    ((∃ rest, s.inputs = .reset w :: rest) ∧ t.engineAt w = some Engine.reset) ∨
    ∃ e e', s.engineAt w = some e ∧ t.engineAt w = some e' ∧ WritesWindow s.inputs w e e' := by
  obtain ⟨-, rfl⟩ | ⟨rest, hstep⟩ := step_cases h
  · exact .inl rfl
  have hs' : State.WindowsDistinct { s with inputs := rest } := hs
  obtain ⟨addr, v, d, s1, u, hin, -, hsel, hwrite, hcomplete⟩ | ⟨addr, s1, -, -, hsel, rfl⟩ | ⟨st, -, rfl⟩ |
    ⟨k, s1, hin, hsel, rfl⟩ := hstep
  · obtain ⟨hwindow1, -⟩ := State.select_around hsel
    obtain ⟨hwindow, hothers, -⟩ := busWrite_complete_around hwrite hcomplete
    have hsame : s1.engineAt w = s.engineAt w := State.select_engineAt hs' hsel w
    by_cases hw : s1.window = w
    · subst hw
      refine .inr (.inr ⟨s1.eng, t.eng, hsame ▸ s1.engineAt_window, hwindow ▸ t.engineAt_window, addr, v, d, rest, hin,
        hwindow1.symm, ?_⟩)
      obtain ⟨hr, heng⟩ | hr := State.complete_eng hcomplete
      · exact .inl ⟨hr, { s1 with race := d.stores }, u, rfl, hwrite, heng.symm⟩
      · exact .inr hr
    · exact .inl ((State.engineAt_congr hwindow hothers hw).trans hsame)
  · have hsame : s1.engineAt w = s.engineAt w := State.select_engineAt hs' hsel w
    exact .inl hsame
  · exact .inl rfl
  · obtain ⟨hwindow1, -⟩ := State.select_around hsel
    have hsame : s1.engineAt w = s.engineAt w := State.select_engineAt hs' hsel w
    by_cases hk : k = w
    · subst hk
      exact .inr (.inl ⟨⟨rest, hin⟩, hwindow1 ▸ s1.resetEngine.engineAt_window⟩)
    · exact .inl ((State.engineAt_congr (s := s1) (t := s1.resetEngine) rfl rfl (hwindow1.trans_ne hk)).trans hsame)

/-- Settles O41: what a step does to the engine of a window it does by a reset of that window or a write into it. -/
theorem instancesShareNoState : Obligations.InstancesShareNoState := by
  intro s t w hs h hwrite hreset
  obtain hsame | ⟨⟨rest, hin⟩, -⟩ | ⟨e, e', -, -, addr, v, d, rest, hin, hw, -⟩ := step_engineAt_cases hs h w
  · exact hsame
  · exact absurd hin (hreset rest)
  · exact absurd hw (hwrite addr 32 v d rest hin)

/-- Settles O40: addressing permutes the windows, and memory changes by stores alone, which keep its canonical form. -/
theorem everyStepKeepsMemoryAndPlatform : Obligations.EveryStepKeepsMemoryAndPlatform := by
  intro s t hmem hs h
  suffices hkept : t.mem.wf = true ∧ t.windows.Perm s.windows ∧ t.plat = s.plat by
    obtain ⟨hwf, hperm, hplat⟩ := hkept
    exact ⟨hwf, hperm.nodup_iff.2 hs, hperm, hplat⟩
  obtain ⟨-, rfl⟩ | ⟨rest, hstep⟩ := step_cases h
  · exact ⟨hmem, .refl _, rfl⟩
  have hselect {k : Nat} {s1 : State} (hsel : State.select { s with inputs := rest } k = some s1) :
      s1.mem = s.mem ∧ s1.windows.Perm s.windows ∧ s1.plat = s.plat := by
    obtain ⟨-, hmem1, hplat1, -⟩ := State.select_around hsel
    have hperm := State.select_windows_perm hsel
    exact ⟨hmem1, hperm, hplat1⟩
  obtain ⟨addr, v, d, s1, u, -, -, hsel, hwrite, hcomplete⟩ | ⟨addr, s1, -, -, hsel, rfl⟩ | ⟨st, -, rfl⟩ |
    ⟨k, s1, -, hsel, rfl⟩ := hstep
  · obtain ⟨hmem1, hperm1, hplat1⟩ := hselect hsel
    obtain ⟨hwindow, hothers, hplat, hmemt⟩ := busWrite_complete_around hwrite hcomplete
    have hwindows : t.windows = s1.windows := by rw [State.windows, State.windows, hwindow, hothers]
    refine ⟨?_, hwindows ▸ hperm1, hplat.trans hplat1⟩
    rw [hmemt, hmem1]
    exact Memory.wf_writeAll _ hmem
  · obtain ⟨hmem1, hperm1, hplat1⟩ := hselect hsel
    exact ⟨(congrArg Memory.wf hmem1).trans hmem, hperm1, hplat1⟩
  · exact ⟨Memory.wf_write hmem st.addr.isLt, .refl _, rfl⟩
  · obtain ⟨hmem1, hperm1, hplat1⟩ := hselect hsel
    exact ⟨(congrArg Memory.wf hmem1).trans hmem, hperm1, hplat1⟩

/-! ### What changes a register -/

/-- A register write changes BASE or LEN alone (R30 to R32). -/
theorem Engine.writeRegister_cases (e : Engine) (off : Nat) (v : Word) :
    (off = 0x20 ∧ e.writeRegister off v = { e with base := v }) ∨
    (off = 0x24 ∧ e.writeRegister off v = { e with len := v }) ∨ e.writeRegister off v = e := by
  by_cases hb : off = 0x20
  · subst hb
    exact .inl ⟨rfl, rfl⟩
  · by_cases hl : off = 0x24
    · subst hl
      exact .inr (.inl ⟨rfl, rfl⟩)
    · exact .inr (.inr (e.writeRegister_other v hb hl))

/-- All that a bus write can do to the engine: run a command, record ILLEGAL, or write a register. -/
theorem busWrite_eng_cases {off : Nat} {v : Word} {s u : State} (h : busWrite off v s = .next u) :
    (off = 0 ∧ ∃ i, decode v = .ok i ∧ exec i s = .next u) ∨ (off = 0 ∧ u.eng = s.eng.raise .illegal) ∨
      (off ≠ 0 ∧ u.eng = s.eng.writeRegister off v) := by
  by_cases hoff : off = 0
  · subst hoff
    rw [busWrite_cmd] at h
    cases hd : decode v with
    | ok i => exact .inl ⟨rfl, i, rfl, (execute_of_decode_ok hd s).symm.trans h⟩
    | error r =>
      obtain rfl := Host.Outcome.next.inj ((execute_of_decode_error hd s).symm.trans h)
      exact .inr (.inl ⟨rfl, rfl⟩)
  · obtain rfl := Host.Outcome.next.inj ((busWrite_register hoff v s).symm.trans h)
    exact .inr (.inr ⟨hoff, rfl⟩)

/-- A bus write that changes ACC0 or ACC1 is a CMD write of a command other than NOP and CLRERR (10_state.md R42). -/
theorem busWrite_changes_sums {off : Nat} {v : Word} {s u : State} (h : busWrite off v s = .next u)
    (hne : u.eng.acc0 ≠ s.eng.acc0 ∨ u.eng.acc1 ≠ s.eng.acc1) :
    off = 0 ∧ ∃ i, decode v = .ok i ∧ i ≠ .nop ∧ i ≠ .clrerr := by
  obtain ⟨hoff, i, hd, hi⟩ | ⟨-, heng⟩ | ⟨-, heng⟩ := busWrite_eng_cases h
  · refine ⟨hoff, i, hd, ?_, ?_⟩
    · rintro rfl
      obtain rfl := Host.Outcome.next.inj hi
      simp at hne
    · rintro rfl
      obtain rfl := Host.Outcome.next.inj hi
      simp at hne
  · simp [heng] at hne
  · obtain ⟨-, hw⟩ | ⟨-, hw⟩ | hw := s.eng.writeRegister_cases off v <;> simp [heng, hw] at hne

/-- A bus write that changes BASE or LEN is the write of that register, which stores the whole value (R30, R31). -/
theorem busWrite_changes_base_len {off : Nat} {v : Word} {s u : State} (h : busWrite off v s = .next u)
    (hne : u.eng.base ≠ s.eng.base ∨ u.eng.len ≠ s.eng.len) :
    (off = 0x20 ∧ u.eng.base = v ∧ u.eng.len = s.eng.len) ∨
      (off = 0x24 ∧ u.eng.len = v ∧ u.eng.base = s.eng.base) := by
  obtain ⟨-, i, -, hi⟩ | ⟨-, heng⟩ | ⟨-, heng⟩ := busWrite_eng_cases h
  · obtain ⟨hbase, hlen⟩ := exec_base_len hi
    simp [hbase, hlen] at hne
  · simp [heng] at hne
  · obtain ⟨hoff, hw⟩ | ⟨hoff, hw⟩ | hw := s.eng.writeRegister_cases off v
    · exact .inl ⟨hoff, by rw [heng, hw], by rw [heng, hw]⟩
    · exact .inr ⟨hoff, by rw [heng, hw], by rw [heng, hw]⟩
    · simp [heng, hw] at hne

/-- A step that changes the engine of a window is its reset, or a 32-bit write into the window: one during which reset
arrives, or whose bus write makes the change. -/
theorem step_changes_engine {s t : State} {w : Nat} {e e' : Engine} (hs : s.WindowsDistinct) (h : step s = .next t)
    (he : s.engineAt w = some e) (he' : t.engineAt w = some e') (hne : e' ≠ e) :
    (∃ rest, s.inputs = .reset w :: rest) ∨
    ∃ addr v d rest, s.inputs = .write addr 32 v d :: rest ∧ addr / 64 = w ∧
      (d.resetAfter ≠ none ∨ ∃ s u, s.eng = e ∧ busWrite (addr % 64) v s = .next u ∧ u.eng = e') := by
  obtain hsame | ⟨hreset, -⟩ | ⟨f, f', hf, hf', addr, v, d, rest, hin, hw, hcase⟩ := step_engineAt_cases hs h w
  · exact absurd (Option.some.inj (he'.symm.trans (hsame.trans he))) hne
  · exact .inl hreset
  · obtain rfl := Option.some.inj (hf.symm.trans he)
    obtain rfl := Option.some.inj (hf'.symm.trans he')
    refine .inr ⟨addr, v, d, rest, hin, hw, ?_⟩
    obtain ⟨-, hwrite⟩ | ⟨hr, -⟩ := hcase
    · exact .inr hwrite
    · exact .inl hr

/-- Settles O42: of the bus writes only a CMD write touches the sums, and neither the record of an error, nor NOP, nor
CLRERR does. -/
theorem accumulatorsChangeOnlyByTheirCommands : Obligations.AccumulatorsChangeOnlyByTheirCommands := by
  intro s t w e e' hs h he he' hne
  have hchanged : e' ≠ e := by
    rintro rfl
    simp at hne
  obtain hreset | ⟨addr, v, d, rest, hin, hw, hr | ⟨s1, u, rfl, hwrite, rfl⟩⟩ :=
    step_changes_engine hs h he he' hchanged
  · exact .inl hreset
  · exact .inr ⟨addr, v, d, rest, hin, hw, .inl hr⟩
  · obtain ⟨hoff, hcommand⟩ := busWrite_changes_sums hwrite hne
    exact .inr ⟨addr, v, d, rest, hin, hw, .inr ⟨by omega, hcommand⟩⟩

/-- Settles O43: no command and no error touches BASE or LEN, so the change is a write of the register itself. -/
theorem baseAndLenChangeOnlyByHostWrites : Obligations.BaseAndLenChangeOnlyByHostWrites := by
  intro s t w e e' hs h he he' hne
  have hchanged : e' ≠ e := by
    rintro rfl
    simp at hne
  obtain hreset | ⟨addr, v, d, rest, hin, hw, hr | ⟨s1, u, rfl, hwrite, rfl⟩⟩ :=
    step_changes_engine hs h he he' hchanged
  · exact .inl hreset
  · exact .inr ⟨addr, v, d, rest, hin, hw, .inl hr⟩
  · refine .inr ⟨addr, v, d, rest, hin, hw, .inr ?_⟩
    obtain ⟨hoff, hval⟩ | ⟨hoff, hval⟩ := busWrite_changes_base_len hwrite hne
    · exact .inl ⟨by omega, hval⟩
    · exact .inr ⟨by omega, hval⟩

end Sys2Proof.Machine
end

section
/-! SUPPORT. What the decoder's laws give for the whole opcode map (spec 30_encoding.md R69 to R71). -/

namespace Sys2Proof

/-- Settles O2: decoding inverts encoding, and a word that decodes is the encoding of what it decodes to. -/
theorem decodeAndEncodeAgree : Obligations.DecodeAndEncodeAgree := fun _ _ => decode_eq_ok_iff

theorem encode_injective {i j : Instr} (h : encode i = encode j) : i = j :=
  Except.ok.inj ((decode_encode i).symm.trans ((congrArg decode h).trans (decode_encode j)))

/-- Settles O4: the words that match a row are the encodings of commands, and a command's mnemonic names its row. -/
theorem decoderIsTotalAndUnambiguous : Obligations.DecoderIsTotalAndUnambiguous := by
  refine fun w => ⟨⟨?_, ?_⟩, ?_⟩
  · rintro ⟨r, hr, hmatch⟩
    obtain ⟨i, henc, -⟩ := exists_encode_of_matches hr hmatch
    exact ⟨i, decode_eq_ok_iff.2 henc⟩
  · rintro ⟨i, hd⟩
    obtain ⟨-, r, hr, -, hmatch⟩ := fitsItsRow i
    rw [decode_eq_ok_iff.1 hd] at hmatch
    exact ⟨r, hr, hmatch⟩
  · intro r hr r' hr' hmatch hmatch'
    obtain ⟨i, henc, hname⟩ := exists_encode_of_matches hr hmatch
    obtain ⟨j, henc', hname'⟩ := exists_encode_of_matches hr' hmatch'
    obtain rfl := encode_injective (henc.trans henc'.symm)
    exact mnemonic_injective_on_opcodeMap r hr r' hr' (hname.symm.trans hname')

/-- Settles O1: each legal word is the encoding of its command; the others are decoded by their opcode, reserved or of a
format whose reserved bits are not all 0. -/
theorem tableWordsDecodeAsWritten : Obligations.TableWordsDecodeAsWritten :=
  ⟨decode_encode .nop, decode_encode .init32, decode_encode .init16, decode_encode (.feed8 0xA5),
    decode_encode (.feed16 0xC35A), decode_encode .final, decode_encode .csum32, decode_encode .csum16,
    decode_encode .clrerr, rfl, rfl, rfl, rfl, decode_of_reservedOpcode (by decide),
    decode_of_reservedOpcode (by decide)⟩

end Sys2Proof

namespace Sys2Proof.Machine

/-- Settles O44: STATUS is the sum of its fields, whose bits are the numbers of R23 and R118. -/
theorem statusFieldsStandInTheirPlaces : Obligations.StatusFieldsStandInTheirPlaces := by
  intro e
  rw [Engine.status_toNat]
  cases e.mode <;> cases e.errcode <;> rfl

end Sys2Proof.Machine
end

section
/-! SUPPORT. The control and stream commands on the engine (spec 41_control_commands.md R97 to R103,
42_stream_commands.md R109, 60_exceptions.md R123): what the close of a computation writes, FEED16 as two bytes, and
that no command's data depend on the error record. -/

namespace Sys2Proof.Machine

/-- Every command but the buffer commands works on the registers of its engine alone. -/
theorem exec_of_not_csum {i : Instr} (h32 : i ≠ .csum32) (h16 : i ≠ .csum16) (e : Engine) :
    ∃ e', ∀ s : State, s.eng = e → exec i s = .next (s.withEngine e') := by
  have hidle (hi : NeedsOpenStream i) (hm : e.mode = .idle) :
      ∃ e', ∀ s : State, s.eng = e → exec i s = .next (s.withEngine e') := by
    refine ⟨e.raise .sequence, ?_⟩
    rintro s rfl
    exact exec_of_needsOpenStream_of_idle hi hm
  cases i with
  | nop => exact ⟨e, fun s hs => hs ▸ rfl⟩
  | init32 => exact ⟨e.start .f32, fun s hs => hs ▸ rfl⟩
  | init16 => exact ⟨e.start .f16, fun s hs => hs ▸ rfl⟩
  | clrerr => exact ⟨e.clearError, fun s hs => hs ▸ rfl⟩
  | feed8 b =>
    by_cases hm : e.mode = .idle
    · exact hidle (.inr (.inl ⟨b, rfl⟩)) hm
    · refine ⟨e.feedbyte b, ?_⟩
      rintro s rfl
      exact exec_feed8_of_open hm b
  | feed16 w =>
    by_cases hm : e.mode = .idle
    · exact hidle (.inr (.inr ⟨w, rfl⟩)) hm
    · refine ⟨(e.feedbyte (loByte w)).feedbyte (hiByte w), ?_⟩
      rintro s rfl
      exact exec_feed16_of_open hm w
  | final =>
    by_cases hm : e.mode = .idle
    · exact hidle (.inl rfl) hm
    · refine ⟨e.finish, ?_⟩
      rintro s rfl
      exact exec_final_of_open hm
  | csum32 => contradiction
  | csum16 => contradiction

/-! ### FINAL -/

/-- The close of a computation within R40 writes the sums and RESULT, and leaves no byte pending and no block open
(R101). -/
theorem Engine.Inv.finish_eq_closedWith {e : Engine} (h : e.Inv) :
    e.finish = e.closedWith e.finish.sums e.count e.finish.result :=
  calc e.finish
    _ = { e.finish.withKept e with result := e.finish.result } := Engine.finish_withKept e e
    _ = e.closedWith e.finish.sums e.finish.count e.finish.result :=
      h.finish.withKept_eq_closedWith (Engine.finish_mode _) (Engine.finish_isDone _) e
    _ = _ := by rw [Engine.finish_count]

/-- The packing of R85 and R88 as arithmetic, where the low sum fits its field. -/
theorem shiftLeft_or_eq_add {n hi lo : Nat} (hlo : lo < 2 ^ n) : (hi <<< n) ||| lo = hi * 2 ^ n + lo := by
  rw [← Nat.shiftLeft_add_eq_or_of_lt hlo, Nat.shiftLeft_eq]

/-- A pending byte is summed as a word with a zero high byte before the last reduction (R101). -/
theorem Engine.finish_f32_sums_eq {e : Engine} (hm : e.mode = .f32) (hblock : e.BlockBounds) :
    e.finish.sums =
      ((e.acc0.toNat + if e.pend then e.pendb.toNat else 0) % 65535,
        (e.acc1.toNat + if e.pend then e.acc0.toNat + e.pendb.toNat else 0) % 65535) := by
  rw [Engine.finish_f32_sums hm]
  cases hp : e.pend with
  | false =>
    rw [Engine.flushPending_of_not_pend hp]
    rfl
  | true =>
    have hword : (concatBytes 0 e.pendb).toNat = e.pendb.toNat := concatBytes_toNat 0 e.pendb
    have hsums : reduceSums e.flushPending.sums = reduceSums (sumWords [concatBytes 0 e.pendb] e.sums) := by
      rw [Engine.flushPending_of_pend hp]
      exact (hblock.pairTaken e.count).reduceSums_wordstep _ []
    rw [hsums, ← hword]
    rfl

/-- Settles O12: `finish` reduces the sums with the pending byte in them, and packs them as `c1 * 65536 + c0`. -/
theorem finalClosesAFletcher32Stream : Obligations.FinalClosesAFletcher32Stream := by
  intro s hinv hm p q c0 c1
  obtain ⟨-, hblock, -⟩ := (Engine.inv_iff_of_f32 hm).1 hinv
  have hsums : s.eng.finish.sums = (c0, c1) := Engine.finish_f32_sums_eq hm hblock
  have hlo : c0 < 2 ^ 16 := Nat.lt_succ_of_lt (Nat.mod_lt _ (by decide))
  have hresult : s.eng.finish.result = BitVec.ofNat 32 (c1 * 65536 + c0) := by
    exact (Engine.finish_f32_result hm).trans (hsums ▸ congrArg _ (shiftLeft_or_eq_add hlo))
  rw [exec_final_of_open (by simp [hm]), hinv.finish_eq_closedWith, hsums, hresult]
  rfl

/-- Settles O13: `finish` packs the two sums, which R40 bounds by 254, and touches no other register of the sums. -/
theorem finalClosesAFletcher16Stream : Obligations.FinalClosesAFletcher16Stream := by
  intro s hinv hm
  obtain ⟨-, -, -, ⟨h0, -⟩, -⟩ := (Engine.inv_iff_of_f16 hm).1 hinv
  have hlo : s.eng.acc0.toNat < 2 ^ 8 := by omega
  rw [exec_final_of_open (by simp [hm]), Engine.finish_other (by simp [hm]), pack16_eq_ofNat, shiftLeft_or_eq_add hlo]
  rfl

/-! ### FEED16 -/

theorem loByte_eq_ofNat (h : Half) : loByte h = BitVec.ofNat 8 (h.toNat % 256) := by
  apply BitVec.eq_of_toNat_eq
  simp [loByte, BitVec.extractLsb'_toNat]

theorem hiByte_eq_ofNat (h : Half) : hiByte h = BitVec.ofNat 8 (h.toNat / 256) := by
  apply BitVec.eq_of_toNat_eq
  simp [hiByte, BitVec.extractLsb'_toNat, Nat.shiftRight_eq_div_pow]

theorem concatBytes_hiByte_loByte (h : Half) : concatBytes (hiByte h) (loByte h) = h := by
  have := h.isLt
  apply BitVec.eq_of_toNat_eq
  rw [concatBytes_toNat, loByte_eq_ofNat, hiByte_eq_ofNat, BitVec.toNat_ofNat, BitVec.toNat_ofNat]
  omega

/-- Two bytes of a Fletcher-32 stream leave PEND as it was; where a byte was pending, the second one is now (R109). -/
theorem Engine.feedbyte_feedbyte_pend {e : Engine} (hm : e.mode = .f32) (lo hi : Byte) :
    ((e.feedbyte lo).feedbyte hi).pend = e.pend ∧ (e.pend = true → ((e.feedbyte lo).feedbyte hi).pendb = hi) := by
  have hm' : (e.feedbyte lo).mode = .f32 := (e.feedbyte_mode lo).trans hm
  cases hp : e.pend with
  | true =>
    have hp' : (e.feedbyte lo).pend = false := by
      rw [Engine.feedbyte_f32_of_pend hm hp]
      exact Engine.wordstep_pend _ _
    rw [Engine.feedbyte_f32_of_not_pend hm' hp']
    exact ⟨rfl, fun _ => rfl⟩
  | false =>
    have hp' : (e.feedbyte lo).pend = true := by rw [Engine.feedbyte_f32_of_not_pend hm hp]
    rw [Engine.feedbyte_f32_of_pend hm' hp']
    exact ⟨Engine.wordstep_pend _ _, nofun⟩

/-- Between two words of a block that stays open, the two bytes of a half word are one word step (R109). -/
theorem Engine.BetweenWords.feedbyte_feedbyte_eq {e : Engine} (h : e.BetweenWords) (hblk : e.blkcnt.toNat < 359)
    (w : Half) :
    (e.feedbyte (loByte w)).feedbyte (hiByte w) = { e.pairTaken (e.count + 2) with
      acc0 := BitVec.ofNat 32 (e.acc0.toNat + w.toNat),
      acc1 := BitVec.ofNat 32 (e.acc1.toNat + (e.acc0.toNat + w.toNat)),
      blkcnt := BitVec.ofNat 9 (e.blkcnt.toNat + 1) } := by
  have hcount : e.count + 1 + 1 = e.count + 2 := BitVec.add_assoc _ _ _
  have hblk' : (e.pairTaken (e.count + 2)).blkcnt.toNat < 359 := hblk
  rw [h.feedbyte_feedbyte, concatBytes_hiByte_loByte, hcount, Engine.wordstep_of_block_open hblk']
  obtain ⟨-, -, hblock⟩ := h
  exact (hblock.pairTaken (e.count + 2)).addWord_eq w

/-- Settles O17: FEED16 is defined as its two bytes, low byte first; PEND and the word step are those of the two. -/
theorem feed16FeedsTheLowByteFirst : Obligations.Feed16FeedsTheLowByteFirst := by
  intro s h hopen lo hi
  have hlo : loByte h = lo := loByte_eq_ofNat h
  have hhi : hiByte h = hi := hiByte_eq_ofNat h
  refine ⟨_, exec_feed16_of_open hopen h, ?_, ?_⟩
  · rw [runCommands_cons_of_next (exec_feed8_of_open hopen lo), runCommands_singleton,
      exec_feed8_of_open ((Engine.feedbyte_mode _ _).trans_ne hopen), hlo, hhi]
    rfl
  · refine ⟨?_, by simp, by simp, fun hm => ?_, fun hm hp => ?_, fun hinv hm hp hblk => ?_⟩
    · rw [State.withEngine_eng, Engine.feedbyte_count, Engine.feedbyte_count]
      exact BitVec.add_assoc _ _ _
    · exact (Engine.feedbyte_feedbyte_pend hm _ _).1
    · exact ((Engine.feedbyte_feedbyte_pend hm _ _).2 hp).trans hhi
    · obtain ⟨hpendb, hblock, -⟩ := (Engine.inv_iff_of_f32 hm).1 hinv
      have hbetween : s.eng.BetweenWords := ⟨hm, hp, hblock⟩
      rw [hbetween.feedbyte_feedbyte_eq hblk, Engine.pairTaken, ← hpendb hp, ← hp]
      rfl

/-! ### RESULT and DONE -/

/-- A computation is closed: DONE is 1, MODE is IDLE and RESULT holds the two sums packed (10_state.md R29, R34). -/
abbrev Engine.Closed (e : Engine) : Prop :=
  e.isDone = true ∧ e.mode = .idle ∧
    (e.result = (e.acc1 <<< 16) ||| e.acc0 ∨ e.result = (e.acc1 <<< 8) ||| e.acc0)

theorem Engine.finish_closed (e : Engine) : e.finish.Closed := by
  refine ⟨e.finish_isDone, e.finish_mode, ?_⟩
  by_cases hm : e.mode = .f32
  · rw [Engine.finish_f32 hm]
    exact .inl rfl
  · rw [Engine.finish_other hm]
    exact .inr rfl

theorem State.feedFrom_result (n a : Nat) (s : State) : (State.feedFrom n a s).eng.result = s.eng.result := by
  induction n generalizing a s with
  | zero => rfl
  | succ n ih => rw [State.feedFrom, ih, State.withEngine_eng, Engine.feedbyte_result]

theorem State.feedFrom_isDone (n a : Nat) (s : State) : (State.feedFrom n a s).eng.isDone = s.eng.isDone := by
  induction n generalizing a s with
  | zero => rfl
  | succ n ih => rw [State.feedFrom, ih, State.withEngine_eng, Engine.feedbyte_isDone]

/-- A buffer command that completes closes its computation; one that records an error writes no RESULT and sets no
DONE. -/
theorem State.csum_keeps_or_closes (s : State) (m : Mode) :
    ((s.csum m).eng.result = s.eng.result ∧ ((s.csum m).eng.isDone = true → s.eng.isDone = true)) ∨
      (s.csum m).eng.Closed := by
  obtain ⟨-, h⟩ | ⟨-, -, h⟩ | ⟨-, k, -, -, -, h⟩ := s.csum_cases m
  · rw [h]
    exact .inl ⟨rfl, id⟩
  · rw [h]
    exact .inr (Engine.finish_closed _)
  · have hdone := State.feedFrom_isDone k s.eng.base.toNat (s.withEngine (s.eng.start m))
    rw [h]
    exact .inl ⟨State.feedFrom_result _ _ _, fun hset => Bool.noConfusion (hset.symm.trans hdone)⟩

/-- Only the commands that close a computation write RESULT or set DONE. -/
theorem exec_keeps_or_closes (i : Instr) (s : State) :
    ∃ t, exec i s = .next t ∧
      ((t.eng.result = s.eng.result ∧ (t.eng.isDone = true → s.eng.isDone = true)) ∨
        ((i = .final ∨ i = .csum32 ∨ i = .csum16) ∧ t.eng.Closed)) := by
  cases i with
  | nop => exact ⟨s, rfl, .inl ⟨rfl, id⟩⟩
  | init32 => exact ⟨_, exec_init32 s, .inl ⟨rfl, nofun⟩⟩
  | init16 => exact ⟨_, exec_init16 s, .inl ⟨rfl, nofun⟩⟩
  | clrerr => exact ⟨_, exec_clrerr s, .inl ⟨rfl, id⟩⟩
  | feed8 b =>
    by_cases hm : s.eng.mode = .idle
    · exact ⟨_, exec_feed8_of_idle hm b, .inl ⟨rfl, id⟩⟩
    · exact ⟨_, exec_feed8_of_open hm b, .inl (by simp)⟩
  | feed16 w =>
    by_cases hm : s.eng.mode = .idle
    · exact ⟨_, exec_feed16_of_idle hm w, .inl ⟨rfl, id⟩⟩
    · exact ⟨_, exec_feed16_of_open hm w, .inl (by simp)⟩
  | final =>
    by_cases hm : s.eng.mode = .idle
    · exact ⟨_, exec_final_of_idle hm, .inl ⟨rfl, id⟩⟩
    · exact ⟨_, exec_final_of_open hm, .inr ⟨.inl rfl, Engine.finish_closed _⟩⟩
  | csum32 => exact ⟨_, exec_csum32 s, (s.csum_keeps_or_closes _).imp_right fun h => ⟨.inr (.inl rfl), h⟩⟩
  | csum16 => exact ⟨_, exec_csum16 s, (s.csum_keeps_or_closes _).imp_right fun h => ⟨.inr (.inr rfl), h⟩⟩

/-- Settles O34: by the command; only `finish` writes RESULT or sets DONE, and it closes the computation. -/
theorem resultIsWrittenOnlyAtAClose : Obligations.ResultIsWrittenOnlyAtAClose := by
  intro s t i h
  obtain ⟨u, hu, hcase⟩ := exec_keeps_or_closes i s
  obtain rfl : u = t := Host.Outcome.next.inj (hu.symm.trans h)
  exact hcase

/-! ### INIT32 and INIT16 -/

/-- A buffer command whose range fits starts its computation before anything else (43_buffer_commands.md R111). -/
theorem State.csum_of_rangeFits {s : State} (h : s.rangeFits) (m : Mode) :
    s.csum m = State.csumLoop s.eng.len.toNat s.eng.base.toNat (s.withEngine (s.eng.start m)) :=
  if_neg (Nat.not_lt.2 h)

/-- Past its range check a buffer command depends on the started state alone. -/
theorem State.csum_congr_start {s s' : State} {m : Mode} (hfits : s.rangeFits)
    (h : s'.withEngine (s'.eng.start m) = s.withEngine (s.eng.start m)) : s'.csum m = s.csum m := by
  have hbase : s'.eng.base = s.eng.base := congrArg (fun t => t.eng.base) h
  have hlen : s'.eng.len = s.eng.len := congrArg (fun t => t.eng.len) h
  have hfits' : s'.rangeFits := by rwa [State.rangeFits, hbase, hlen]
  rw [State.csum_of_rangeFits hfits', State.csum_of_rangeFits hfits, hbase, hlen, h]

/-- Settles O35: `start` overwrites every register in which the two states may differ. -/
theorem startingAbandonsTheOpenStream : Obligations.StartingAbandonsTheOpenStream := by
  intro s m a0 a1 n k p d b i hi
  constructor
  · obtain rfl | rfl | ⟨rfl | rfl, hfits⟩ := hi
    · rfl
    · rfl
    · exact congrArg Host.Outcome.next (State.csum_congr_start hfits rfl)
    · exact congrArg Host.Outcome.next (State.csum_congr_start hfits rfl)
  · rintro (rfl | rfl)
    · exact ⟨_, exec_init32 s, rfl, rfl, rfl⟩
    · exact ⟨_, exec_init16 s, rfl, rfl, rfl⟩

/-- Settles O36: INIT and CLRERR write every register but RESULT, BASE and LEN; a state with BASE = 1 shows that no
command writes BASE. -/
theorem initThenClrerrIsNearlyAReset : Obligations.InitThenClrerrIsNearlyAReset := by
  refine ⟨fun s => ⟨?_, ?_⟩, fun i => ?_⟩
  · rw [runCommands_cons_of_next (exec_init32 s), runCommands_singleton, exec_clrerr]
    rfl
  · rw [runCommands_cons_of_next (exec_init16 s), runCommands_singleton, exec_clrerr]
    rfl
  · obtain ⟨_, _, _, _, h⟩ := exec_around i (State.reset.withEngine { Engine.reset with base := 1 })
    obtain ⟨hbase, -⟩ := exec_base_len h
    refine ⟨_, _, h, fun hreset => ?_⟩
    rw [hreset] at hbase
    exact absurd hbase (by decide)

/-! ### The error record beside the data -/

/-- ERR is sticky: a recorded error is kept (R123). -/
theorem Engine.raise_errors_of_recorded {e : Engine} (h : e.err = true) (c : ErrCode) :
    (e.raise c).errors = e.errors := by
  rw [Engine.errors, Engine.errors, Engine.raise_err, Engine.raise_errcode, h, if_pos rfl]

/-- With an error recorded, every command but CLRERR leaves the record as it is. -/
theorem exec_errors_of_recorded {i : Instr} (hi : i ≠ .clrerr) {s : State} (herr : s.eng.err = true) :
    ∃ t, exec i s = .next t ∧ t.eng.errors = s.eng.errors := by
  have hopen (hi : NeedsOpenStream i) : ∃ t, exec i s = .next t ∧ t.eng.errors = s.eng.errors := by
    by_cases hm : s.eng.mode = .idle
    · exact ⟨_, exec_of_needsOpenStream_of_idle hi hm, Engine.raise_errors_of_recorded herr _⟩
    · exact exec_errors_of_needsOpenStream_of_open hi hm
  have hcsum (m : Mode) : (s.csum m).eng.errors = s.eng.errors := by
    by_cases hfits : s.rangeFits
    · by_cases hread : s.rangeReadable
      · exact State.csum_errors_of_readable hfits hread m
      · exact (State.csum_errors_of_unreadable hfits hread m).trans (Engine.raise_errors_of_recorded herr _)
    · rw [State.csum_of_wrapping (Nat.not_le.1 hfits)]
      exact Engine.raise_errors_of_recorded herr _
  cases i with
  | nop | init32 | init16 => exact ⟨_, rfl, rfl⟩
  | feed8 b => exact hopen (.inr (.inl ⟨b, rfl⟩))
  | feed16 w => exact hopen (.inr (.inr ⟨w, rfl⟩))
  | final => exact hopen (.inl rfl)
  | csum32 => exact ⟨_, exec_csum32 s, hcsum _⟩
  | csum16 => exact ⟨_, exec_csum16 s, hcsum _⟩
  | clrerr => contradiction

/-- Settles O30: every way to record an error is `raise`, which keeps a recorded one; CLRERR's is the one word that
decodes to CLRERR. -/
theorem firstErrorIsKept : Obligations.FirstErrorIsKept := by
  intro s w code
  refine ⟨rfl, fun hw herr => ?_, _, execute_of_decode_ok (decode_encode .clrerr) s, rfl, rfl⟩
  cases hd : decode w with
  | error r =>
    exact ⟨_, execute_of_decode_error hd s, Engine.raise_err _ _,
      congrArg Prod.snd (Engine.raise_errors_of_recorded herr _)⟩
  | ok i =>
    have hi : i ≠ .clrerr := by
      rintro rfl
      exact hw (decode_eq_ok_iff_eq_encode.1 hd)
    obtain ⟨t, ht, herrors⟩ := exec_errors_of_recorded hi herr
    obtain ⟨herr', hcode⟩ := Prod.mk.inj herrors
    exact ⟨t, (execute_of_decode_ok hd s).trans ht, herr'.trans herr, hcode⟩

/-- The engine with another error record. -/
def Engine.withErrors (e : Engine) (x : Bool) (c : ErrCode) : Engine := { e with err := x, errcode := c }

/-- The state with another error record for the addressed engine. -/
def State.withErrors (s : State) (x : Bool) (c : ErrCode) : State := s.withEngine (s.eng.withErrors x c)

@[simp] theorem State.withErrors_eng (s : State) (x : Bool) (c : ErrCode) :
    (s.withErrors x c).eng = s.eng.withErrors x c := rfl

theorem Engine.feedbyte_withErrors (e : Engine) (x : Bool) (c : ErrCode) (b : Byte) :
    (e.withErrors x c).feedbyte b = (e.feedbyte b).withErrors x c :=
  calc (e.withErrors x c).feedbyte b
    _ = ((e.feedbyte b).withKept e).withErrors x c := Engine.feedbyte_withKept e (e.withErrors x c) b
    _ = (e.feedbyte b).withErrors x c := by
      rw [← Engine.feedbyte_withKept]
      rfl

theorem Engine.finish_withErrors (e : Engine) (x : Bool) (c : ErrCode) :
    (e.withErrors x c).finish = e.finish.withErrors x c :=
  calc (e.withErrors x c).finish
    _ = Engine.withErrors { e.finish.withKept e with result := e.finish.result } x c :=
      Engine.finish_withKept e (e.withErrors x c)
    _ = e.finish.withErrors x c := by
      rw [← Engine.finish_withKept]
      rfl

/-- The byte loop works on the data alone, and whether it ends in `finish` or in `memfault` is the range's affair. -/
theorem State.csumLoop_withErrors (n a : Nat) (s : State) (x : Bool) (c : ErrCode) :
    ∃ x' c', State.csumLoop n a (s.withErrors x c) = (State.csumLoop n a s).withErrors x' c' := by
  induction n generalizing a s with
  | zero => exact ⟨x, c, congrArg s.withEngine (Engine.finish_withErrors s.eng x c)⟩
  | succ n ih =>
    by_cases hread : s.plat.readable a = true
    · obtain ⟨x', c', h⟩ := ih (a + 1) ((s.afterRead a).withEngine (s.eng.feedbyte (s.portByte a)))
      refine ⟨x', c', ?_⟩
      rw [State.csumLoop, State.csumLoop, if_pos hread, if_pos (by exact hread), ← h]
      exact congrArg (fun e => State.csumLoop n (a + 1) ((s.afterRead a).withEngine e))
        (Engine.feedbyte_withErrors s.eng x c _)
    · refine ⟨true, if x then c else .memfault, ?_⟩
      rw [State.csumLoop, State.csumLoop, if_neg hread, if_neg (by exact hread)]
      rfl

theorem State.csum_withErrors (s : State) (m : Mode) (x : Bool) (c : ErrCode) :
    ∃ x' c', (s.withErrors x c).csum m = (s.csum m).withErrors x' c' := by
  by_cases hfits : s.rangeFits
  · rw [State.csum_of_rangeFits hfits, State.csum_of_rangeFits (by exact hfits)]
    exact State.csumLoop_withErrors _ _ (s.withEngine (s.eng.start m)) x c
  · have hwrap := Nat.not_le.1 hfits
    rw [State.csum_of_wrapping hwrap, State.csum_of_wrapping (by exact hwrap)]
    exact ⟨true, if x then c else .range, rfl⟩

/-- From another error record a command leads to the same state but for the record (10_state.md R35). -/
theorem exec_withErrors (i : Instr) (s : State) (x : Bool) (c : ErrCode) :
    ∃ t x' c', exec i s = .next t ∧ exec i (s.withErrors x c) = .next (t.withErrors x' c') := by
  have hidle (hi : NeedsOpenStream i) (hm : s.eng.mode = .idle) :
      ∃ t x' c', exec i s = .next t ∧ exec i (s.withErrors x c) = .next (t.withErrors x' c') :=
    ⟨_, true, if x then c else .sequence, exec_of_needsOpenStream_of_idle hi hm,
      exec_of_needsOpenStream_of_idle (s := s.withErrors x c) hi hm⟩
  cases i with
  | nop => exact ⟨s, x, c, rfl, rfl⟩
  | init32 => exact ⟨_, x, c, exec_init32 s, rfl⟩
  | init16 => exact ⟨_, x, c, exec_init16 s, rfl⟩
  | clrerr => exact ⟨_, false, .none, exec_clrerr s, rfl⟩
  | feed8 b =>
    by_cases hm : s.eng.mode = .idle
    · exact hidle (.inr (.inl ⟨b, rfl⟩)) hm
    · refine ⟨_, x, c, exec_feed8_of_open hm b, ?_⟩
      rw [exec_feed8_of_open (by exact hm), State.withErrors_eng, Engine.feedbyte_withErrors]
      rfl
  | feed16 w =>
    by_cases hm : s.eng.mode = .idle
    · exact hidle (.inr (.inr ⟨w, rfl⟩)) hm
    · refine ⟨_, x, c, exec_feed16_of_open hm w, ?_⟩
      rw [exec_feed16_of_open (by exact hm), State.withErrors_eng, Engine.feedbyte_withErrors,
        Engine.feedbyte_withErrors]
      rfl
  | final =>
    by_cases hm : s.eng.mode = .idle
    · exact hidle (.inl rfl) hm
    · refine ⟨_, x, c, exec_final_of_open hm, ?_⟩
      rw [exec_final_of_open (by exact hm), State.withErrors_eng, Engine.finish_withErrors]
      rfl
  | csum32 =>
    obtain ⟨x', c', h⟩ := s.csum_withErrors .f32 x c
    exact ⟨_, x', c', exec_csum32 s, congrArg _ h⟩
  | csum16 =>
    obtain ⟨x', c', h⟩ := s.csum_withErrors .f16 x c
    exact ⟨_, x', c', exec_csum16 s, congrArg _ h⟩

/-- Settles O32: the two next states differ in the record alone, which the comparison clears. -/
theorem errorsDoNotDisturbData : Obligations.ErrorsDoNotDisturbData := by
  intro s i e code
  obtain ⟨t, x', c', ht, ht'⟩ := exec_withErrors i s e code
  exact ⟨t, t.withErrors x' c', ht, ht', rfl⟩

end Sys2Proof.Machine
end

section
/-! SUPPORT. The buffer commands read by read (spec 20_memory.md R53, R58, R61, 43_buffer_commands.md R115): which
addresses a command reads, how it ends at an unreadable byte, and what it computes when bytes race. -/

namespace Sys2Proof.Machine

/-! ### The reads of a command -/

/-- The first `k` bytes of the range are all that a buffer command reads: the whole range, or the bytes below the first
that is not Readable, and none where the range does not fit (20_memory.md R53, R58; 43_buffer_commands.md R114). -/
abbrev State.ReadsUpTo (s : State) (k : Nat) : Prop :=
  k ≤ s.eng.len.toNat ∧ (∀ j < k, s.plat.readable (s.eng.base.toNat + j) = true) ∧ (¬ s.rangeFits → k = 0) ∧
    (s.rangeFits → k < s.eng.len.toNat → s.plat.readable (s.eng.base.toNat + k) = false)

theorem State.csum_reads (s : State) (m : Mode) :
    ∃ k, s.ReadsUpTo k ∧ ∃ e d b, s.csum m = { s with
      eng := e, portReads := s.readLog k ++ s.portReads, draws := d, boundsBroken := b } := by
  obtain ⟨hwrap, h⟩ | ⟨hfits, hread, h⟩ | ⟨hfits, k, hk, hgood, hbad, h⟩ := s.csum_cases m
  · exact ⟨0, ⟨Nat.zero_le _, nofun, fun _ => rfl, fun hfits => absurd hfits (Nat.not_le.2 hwrap)⟩, _, _, _, h⟩
  · refine ⟨s.eng.len.toNat,
      ⟨le_refl _, hread, fun hwrap => absurd hfits hwrap, fun _ hlt => absurd hlt (lt_irrefl _)⟩, ?_⟩
    rw [h, State.feedFrom_around]
    exact ⟨_, _, _, rfl⟩
  · refine ⟨k, ⟨hk.le, hgood, fun hwrap => absurd hfits hwrap, fun _ _ => hbad⟩, ?_⟩
    rw [h, State.feedFrom_around]
    exact ⟨_, _, _, rfl⟩

/-- Settles O20: a buffer command reads as `csum` does, and any other works on the engine alone. -/
theorem readsAreAscendingAndOnce : Obligations.ReadsAreAscendingAndOnce := by
  refine fun s i => ⟨fun hi => ?_, fun h32 h16 => ?_⟩
  · obtain ⟨m, h⟩ := exec_csum hi s
    obtain ⟨k, hk, _, _, _, hcsum⟩ := s.csum_reads m
    exact ⟨_, k, h, congrArg State.portReads hcsum, hk⟩
  · obtain ⟨e, h⟩ := exec_of_not_csum h32 h16 s.eng
    exact ⟨_, h s rfl, rfl⟩

/-- Whatever a command reads are the first bytes of its range. -/
theorem exec_reads (i : Instr) (s : State) :
    ∃ t k, exec i s = .next t ∧ t.portReads = s.readLog k ++ s.portReads := by
  by_cases hi : i = .csum32 ∨ i = .csum16
  · obtain ⟨m, h⟩ := exec_csum hi s
    obtain ⟨k, -, e, d, b, hcsum⟩ := s.csum_reads m
    exact ⟨_, k, h, congrArg State.portReads hcsum⟩
  · obtain ⟨h32, h16⟩ := not_or.1 hi
    obtain ⟨e, h⟩ := exec_of_not_csum h32 h16 s.eng
    exact ⟨_, 0, h s rfl, rfl⟩

theorem execute_reads (w : Word) (s : State) :
    ∃ t k, execute w s = .next t ∧ t.portReads = s.readLog k ++ s.portReads := by
  cases h : decode w with
  | ok i =>
    rw [execute_of_decode_ok h]
    exact exec_reads i s
  | error r => exact ⟨_, 0, execute_of_decode_error h s, rfl⟩

theorem State.readLog_length (s : State) (k : Nat) : (s.readLog k).length = k := by simp [State.readLog]

/-- The log is newest first, so what is left after dropping the latest reads is the log of the earlier ones. -/
theorem State.drop_readLog (s : State) (n k : Nat) : (s.readLog k).drop (k - n) = s.readLog (min n k) := by
  have hleft : min (k - (k - n)) k = min n k := by omega
  rw [State.readLog, List.drop_reverse, ← List.map_take, List.take_range, List.length_map, List.length_range, hleft,
    State.readLog]

/-- The byte steps between two states are the reads made between them. -/
theorem State.byteSteps_of_reads {b a : State} {k : Nat} (h : a.portReads = b.readLog k ++ b.portReads) :
    b.byteSteps a = k := by
  rw [State.byteSteps, h, List.length_append, State.readLog_length, Nat.add_sub_cancel]

/-! ### An unreadable byte -/

theorem State.feedFrom_start_withKept (n a : Nat) (s : State) (m : Mode) :
    (State.feedFrom n a (s.withEngine (s.eng.start m))).eng =
      (State.feedFrom n a (s.withEngine (s.eng.start m))).eng.withKept s.eng := by
  rw [State.feedFrom_eng]
  exact Engine.foldl_feedbyte_withKept (s.eng.start m) s.eng _

/-- In the middle of a buffer command RESULT, BASE, LEN and the error record are as before it, and DONE is 0. -/
theorem State.feedFrom_start_eng (n a : Nat) (s : State) (m : Mode) :
    ∃ e : Engine, (State.feedFrom n a (s.withEngine (s.eng.start m))).eng =
      { e.withKept s.eng with isDone := false } := by
  have hdone : (State.feedFrom n a (s.withEngine (s.eng.start m))).eng.isDone = false := State.feedFrom_isDone _ _ _
  refine ⟨(State.feedFrom n a (s.withEngine (s.eng.start m))).eng, ?_⟩
  rw [← hdone]
  exact State.feedFrom_start_withKept n a s m

/-- Settles O22: the loop stops at the first unreadable byte in `memfault`, which leaves RESULT, BASE and LEN alone. -/
theorem unreadableByteRaisesMemfault : Obligations.UnreadableByteRaisesMemfault := by
  intro s i k hi hfits hk hgood hbad
  obtain ⟨m, h⟩ := exec_csum hi s
  obtain ⟨e, heng⟩ := State.feedFrom_start_eng k s.eng.base.toNat s m
  have hcsum : s.csum m = (State.feedFrom k s.eng.base.toNat (s.withEngine (s.eng.start m))).memfault :=
    (State.csum_of_rangeFits hfits m).trans (State.csumLoop_unreadable _ _ k _ hk hgood hbad)
  rw [h, hcsum, State.feedFrom_around, heng]
  exact ⟨_, _, _, _, rfl⟩

/-! ### Racing bytes -/

/-- Over a readable range a buffer command closes on the stream of the bytes that the port delivers. -/
theorem State.csum_closes {s : State} (hfits : s.rangeFits) (hread : s.rangeReadable) {m : Mode} {c : Nat × Nat}
    {r : Word} {bs : List Byte} (hbs : State.bytesFrom s.eng.len.toNat s.eng.base.toNat s = bs)
    (hsums : (bs.foldl Engine.feedbyte (s.eng.start m)).finish.sums = c)
    (hresult : (bs.foldl Engine.feedbyte (s.eng.start m)).finish.result = r) :
    s.csum m = { s with
      eng := s.eng.closedWith c s.eng.len r
      portReads := s.readLog s.eng.len.toNat ++ s.portReads
      draws := s.draws + s.racedBefore s.eng.len.toNat } := by
  have hcount : BitVec.ofNat 32 bs.length = s.eng.len := by
    rw [← hbs, State.bytesFrom_length, BitVec.ofNat_toNat, BitVec.setWidth_eq]
  have heng : (s.csum m).eng = s.eng.closedWith c s.eng.len r := by
    rw [State.csum_of_readable hfits hread, State.withEngine_eng, State.feedFrom_eng, State.bytesFrom_withEngine, hbs,
      State.withEngine_eng, Engine.finish_stream_eq_closedWith hsums hresult, hcount]
  rw [State.csum_around_of_readable hfits hread, heng]

/-- Settles O23: the bytes are those the port delivers, memory's where nobody writes and a draw of its own elsewhere. -/
theorem racingBytesAreFreeAndTheRestHolds : Obligations.RacingBytesAreFreeAndTheRestHolds := by
  intro s hfits hread
  refine ⟨State.bytesFrom s.eng.len.toNat s.eng.base.toNat s, State.bytesFrom_length _ _ _,
    fun j hj hquiet => State.bytesFrom_getElem? _ _ j s hj hquiet,
    fun j hj hraced => State.bytesFrom_raced _ _ j s hj hraced, ?_, ?_⟩
  · rw [exec_csum32, State.csum_closes hfits hread rfl (Engine.finish_stream32_sums _ _)
      (Engine.finish_stream32_result _ _)]
    rfl
  · rw [exec_csum16, State.csum_closes hfits hread rfl (Engine.finish_stream16_sums _ _)
      (Engine.finish_stream16_result _ _)]
    rfl

end Sys2Proof.Machine
end

section
/-! SUPPORT. The step of each input (spec 10_state.md R36, R39, 60_exceptions.md R134, 70_reset_and_hazards.md R135,
R146): a store, a command write with racing stores, reset during a write, and the platform's timeout. -/

namespace Sys2Proof.Machine

/-- Settles O38: each conjunct is the law of an empty or zero component. -/
theorem resetMeetsTheInvariant : Obligations.ResetMeetsTheInvariant :=
  ⟨⟨Engine.inv_reset, nofun⟩, Memory.wf_nil, List.nodup_singleton _⟩

/-- Settles O7: a step carries out the oldest input, and there is none. -/
theorem noInputHoldsTheState : Obligations.NoInputHoldsTheState := by
  intro s h
  simp only [step, h]

/-- Settles O48: a read after a write, at the same address and at another. -/
theorem visibleStoresAreRead : Obligations.VisibleStoresAreRead := by
  intro s rest st hwf hin
  exact ⟨_, step_cons hin, Memory.read_write_same hwf, fun _ ha => Memory.read_write_other ha, rfl⟩

/-! ### The step of a bus write -/

section Write

variable {s s1 : State} {rest : List Input} {k : Nat} {v : Word} {d : During}
  (hsel : State.select { s with inputs := rest } k = some s1)
include hsel

theorem step_command (hin : s.inputs = .write (64 * k) 32 v d :: rest) {u : State}
    (hu : execute v { s1 with race := d.stores } = .next u) : step s = State.complete s1 d.resetAfter u :=
  (step_cons hin).trans (performWrite_offset (off := 0) rfl (by decide) hsel v d hu)

theorem step_register {off : Nat} (hal : off % 4 = 0) (hlt : off < 64) (hoff : off ≠ 0)
    (hin : s.inputs = .write (64 * k + off) 32 v d :: rest) :
    step s = State.complete s1 d.resetAfter
      (State.withEngine { s1 with race := d.stores } (s1.eng.writeRegister off v)) :=
  (step_cons hin).trans (performWrite_offset hal hlt hsel v d (busWrite_register hoff v _))

end Write

theorem State.complete_none (b a : State) :
    State.complete b none a =
      if a.plat.timesOut (b.byteSteps a) then .fault .busTimeout
      else .next { a with mem := a.mem.writeAll a.race, race := [] } := rfl

/-- Settles O6: the step is the command and then the end of the bus write. -/
theorem stepRunsTheDeliveredCommand : Obligations.StepRunsTheDeliveredCommand := by
  intro s s1 rest k w stores i hin hsel hd
  obtain ⟨-, -, hplat1, -, -, hport1, -⟩ := State.select_around hsel
  obtain ⟨u, hu, hplat, hrace⟩ :
      ∃ u, exec i { s1 with race := stores } = .next u ∧ u.plat = s.plat ∧ u.race = stores := by
    obtain ⟨_, _, _, _, hu⟩ := exec_around i { s1 with race := stores }
    exact ⟨_, hu, hplat1, rfl⟩
  have hsteps : s1.byteSteps u = s.byteSteps u := by rw [State.byteSteps, State.byteSteps, hport1]
  rw [step_command hsel hin ((execute_of_decode_ok hd _).trans hu), hu]
  simp only [State.complete_none, hplat, hrace, hsteps]

/-! ### Reset during a write -/

/-- The end of a write that has read `k` bytes when reset comes at byte `n`: the first of the reads stand, and of the
command nothing else but the draws, and the mark where it was complete (R135). -/
theorem State.complete_some {b a : State} {k : Nat} (h : a.portReads = b.readLog k ++ b.portReads) (n : Nat) :
    State.complete b (some n) a =
      if a.plat.timesOut (min n k) then .fault .busTimeout
      else .next { a with
        race := [], eng := Engine.reset, mem := a.mem.writeAll a.race
        portReads := b.readLog (min n k) ++ b.portReads
        boundsBroken := if n < k then b.boundsBroken else a.boundsBroken } := by
  have hsteps := State.byteSteps_of_reads h
  have hle : k - n ≤ (b.readLog k).length := (Nat.sub_le _ _).trans (b.readLog_length k).ge
  have hdrop : (b.abandon a n).portReads = b.readLog (min n k) ++ b.portReads := by
    rw [State.abandon, hsteps, h, List.drop_append_of_le_length hle, State.drop_readLog]
  rw [State.complete, State.byteSteps_of_reads hdrop, ← hdrop, State.abandon, hsteps]

/-- A command word changes at most the engine, what the port has seen, the draws and the mark. -/
theorem execute_frame {w : Word} {s t : State} (h : execute w s = .next t) :
    t = { s with eng := t.eng, portReads := t.portReads, draws := t.draws, boundsBroken := t.boundsBroken } := by
  obtain ⟨_, _, _, _, hnext⟩ := execute_around w s
  obtain rfl := Host.Outcome.next.inj (hnext.symm.trans h)
  rfl

/-- Settles O47: reset between commands is `resetEngine`; during a write it is the end of that write, whose reads are
the first of the range. -/
theorem resetInputResetsTheInstance : Obligations.ResetInputResetsTheInstance := by
  intro s s1 rest k hsel
  obtain ⟨-, -, hplat, -⟩ := State.select_around hsel
  refine ⟨fun hin => ?_, fun w stores n => ⟨fun hin => ?_, fun off hal hlt hoff hin => ?_⟩⟩
  · rw [step_cons hin, perform, performReset, hsel]
    rfl
  · obtain ⟨u, j, hu, hport⟩ := execute_reads w { s1 with race := stores }
    have hframe := execute_frame hu
    have hplatu : u.plat = s1.plat := by rw [hframe]
    have hcomplete := State.complete_some (b := s1) (a := u) hport n
    rw [hplatu, ← State.byteSteps_of_reads (b := s1) (a := u) hport] at hcomplete
    refine ⟨u, hu, (step_command hsel hin hu).trans (hcomplete.trans ?_)⟩
    generalize s1.byteSteps u = c
    rw [hframe, show s.plat = s1.plat from hplat.symm]
    rfl
  · have hcomplete := State.complete_some (b := s1)
      (a := State.withEngine { s1 with race := stores } (s1.eng.writeRegister off w)) (k := 0) rfl n
    rw [Nat.min_zero, timesOut_zero] at hcomplete
    exact (step_register hsel hal hlt hoff hin).trans hcomplete

/-! ### The platform's timeout -/

/-- The two words of the buffer commands. -/
theorem execute_csum {w : Word} (hw : w = 0x60000000 ∨ w = 0x70000000) (s : State) :
    ∃ m, execute w s = .next (s.csum m) := by
  obtain rfl | rfl := hw
  · exact ⟨_, execute_of_decode_ok (decode_encode .csum32) s⟩
  · exact ⟨_, execute_of_decode_ok (decode_encode .csum16) s⟩

/-- A buffer command over a readable range reads as many bytes as the range has, and sets DONE. -/
theorem execute_csum_of_readable {w : Word} (hw : w = 0x60000000 ∨ w = 0x70000000) {s : State} (hfits : s.rangeFits)
    (hread : s.rangeReadable) :
    ∃ u, execute w s = .next u ∧ u.plat = s.plat ∧ u.eng.isDone = true ∧
      u.portReads = s.readLog s.eng.len.toNat ++ s.portReads := by
  obtain ⟨m, h⟩ := execute_csum hw s
  have haround := State.csum_around_of_readable hfits hread m
  refine ⟨_, h, by rw [haround], ?_, by rw [haround]⟩
  rw [State.csum_of_readable hfits hread]
  exact Engine.finish_isDone _

theorem timesOut_of_limit {p : Platform} {limit : Nat} (h : p.busTimeout = some limit) (n : Nat) :
    p.timesOut n = decide (limit < n) := by
  simp only [Platform.timesOut, h]

/-- Settles O49: a buffer command over a readable range takes as many byte steps as the range has bytes. -/
theorem busTimeoutStopsOnlyLongerAccesses : Obligations.BusTimeoutStopsOnlyLongerAccesses := by
  intro s rest limit w hin hw hlimit hfits hread
  have hsel := State.select_window { s with inputs := rest }
  obtain ⟨u, hu, hplat, hdone, hport⟩ :=
    execute_csum_of_readable hw (s := { s with inputs := rest, race := [] }) hfits hread
  have hsteps : State.byteSteps { s with inputs := rest } u = s.eng.len.toNat := State.byteSteps_of_reads hport
  have hstep : step s = State.complete { s with inputs := rest } none u := step_command hsel hin hu
  rw [hstep, State.complete_none, hplat, hsteps, timesOut_of_limit hlimit]
  refine ⟨fun hlt => if_pos (decide_eq_true hlt), fun hle => ⟨_, if_neg ?_, hdone⟩⟩
  simpa using hle

end Sys2Proof.Machine
end

section
/-! SUPPORT. The bounds on the sums of a block (spec 40_algorithms.md R92). -/

namespace Sys2Proof.Machine

theorem plainSum_le {m : Nat} {xs : List Nat} (h : ∀ x ∈ xs, x ≤ m) : plainSum xs ≤ m * xs.length := by
  induction xs with
  | nil => exact Nat.zero_le _
  | cons x xs ih =>
    obtain ⟨hx, hxs⟩ := List.forall_mem_cons.1 h
    have hrest := ih hxs
    rw [plainSum_cons, List.length_cons, Nat.mul_succ]
    omega

/-- The weights of `n` numbers are `n .. 1`, which sum to `n * (n + 1) / 2`. -/
theorem two_mul_weightedSum_le {m : Nat} {xs : List Nat} (h : ∀ x ∈ xs, x ≤ m) :
    2 * weightedSum xs ≤ m * xs.length * (xs.length + 1) := by
  induction xs with
  | nil => exact Nat.zero_le _
  | cons x xs ih =>
    obtain ⟨hx, hxs⟩ := List.forall_mem_cons.1 h
    have hrest := ih hxs
    have hhead : (xs.length + 1) * x ≤ (xs.length + 1) * m := Nat.mul_le_mul_left _ hx
    rw [weightedSum_cons, List.length_cons]
    linarith

theorem two_mul_weightedSum_replicate (n x : Nat) : 2 * weightedSum (List.replicate n x) = x * n * (n + 1) := by
  induction n with
  | zero => rfl
  | succ n ih =>
    rw [List.replicate_succ, weightedSum_cons, List.length_replicate]
    linarith

/-- R92, with the weights of R91. -/
theorem sumWords_le (ws : List Half) {c : Nat × Nat} (h1 : c.1 ≤ 65534) (h2 : c.2 ≤ 65534) :
    (sumWords ws c).1 ≤ 65534 + 65535 * ws.length ∧
    (sumWords ws c).2 ≤ 65534 * (ws.length + 1) + 65535 * ws.length * (ws.length + 1) / 2 := by
  have hwords : ∀ x ∈ ws.map BitVec.toNat, x ≤ 65535 := by
    simp only [List.forall_mem_map]
    exact fun w _ => Nat.le_of_lt_succ w.isLt
  have hplain := plainSum_le hwords
  have hweighted := two_mul_weightedSum_le hwords
  have hfirst : ws.length * c.1 ≤ ws.length * 65534 := Nat.mul_le_mul_left _ h1
  rw [List.length_map] at hplain hweighted
  rw [sumWords_eq_closedSums, closedSums, List.length_map]
  exact ⟨by omega, by omega⟩

/-- Settles O27: by the bounds of R92, which grow with the number of words; 361 words 0xFFFF pass 2^32. -/
theorem blockSumsFitThirtyTwoBits : Obligations.BlockSumsFitThirtyTwoBits := by
  refine ⟨fun ws c h1 h2 => ?_, List.replicate 361 0xFFFF, List.length_replicate, ?_⟩
  · obtain ⟨hsum1, hsum2⟩ := sumWords_le ws h1 h2
    refine ⟨hsum1, hsum2, fun hlen => ⟨by omega, ?_⟩⟩
    have hpairs : 65535 * ws.length * (ws.length + 1) ≤ 65535 * 360 * (360 + 1) :=
      Nat.mul_le_mul (Nat.mul_le_mul_left _ hlen) (Nat.add_le_add_right hlen 1)
    omega
  · have hweighted := two_mul_weightedSum_replicate 361 65535
    have hwords : (List.replicate 361 (0xFFFF : Half)).map BitVec.toNat = List.replicate 361 65535 :=
      List.map_replicate
    rw [sumWords_eq_closedSums, hwords, closedSums, List.length_replicate]
    dsimp only
    omega

end Sys2Proof.Machine
end

section
/-! SUPPORT. Host programs on the bus (spec 30_encoding.md R73, R74): what the lines of a stream assemble to, and that
the step carries out command writes as `runCommands` does the commands. -/

namespace Sys2Proof.Machine

/-! ### Commands written to CMD -/

/-- The bus write of a command to the engine of a window (R73). -/
def commandInput (window : Nat) (i : Instr) : Input := writeInput window 0 (encode i)

theorem runSteps_succ_of_next {s t : State} (h : step s = .next t) (k : Nat) : runSteps (k + 1) s = runSteps k t := by
  simp only [runSteps, h]

theorem runSteps_add_of_next {m : Nat} {s t : State} (h : runSteps m s = .next t) (n : Nat) :
    runSteps (m + n) s = runSteps n t := by
  induction m generalizing s with
  | zero => rw [Host.Outcome.next.inj h, Nat.zero_add]
  | succ m ih =>
    cases hstep : step s with
    | next u =>
      rw [runSteps_succ_of_next hstep] at h
      rw [Nat.succ_add, runSteps_succ_of_next hstep, ih h]
    | fault r => simp [runSteps, hstep] at h
    | refused r => simp [runSteps, hstep] at h

/-- The command is none that reads memory. -/
abbrev NotCsum (i : Instr) : Prop := i ≠ .csum32 ∧ i ≠ .csum16

/-- The step of a command write that reads no memory: the engine is that of the command, and the write is in time. -/
theorem step_commandInput {i : Instr} {e e' : Engine}
    (hexec : ∀ s : State, s.eng = e → exec i s = .next (s.withEngine e')) {s : State} (hs : s.eng = e)
    (rest : List Input) :
    step { s with inputs := commandInput s.window i :: rest } =
      .next { s with eng := e', inputs := rest, race := [] } := by
  have hexecute := (execute_of_decode_ok (decode_encode i) _).trans (hexec { s with inputs := rest, race := [] } hs)
  have hstep := step_command (s := { s with inputs := commandInput s.window i :: rest })
    (State.select_window { s with inputs := rest }) rfl hexecute
  refine hstep.trans (State.complete_quiet rfl ?_)
  exact (congrArg _ (Nat.sub_self _)).trans (timesOut_zero _)

/-- Commands that read no memory work on the engine alone, one after the other, and delivered as command writes they
lead the engine to the same registers, one a step. -/
theorem run_of_not_csum {cmds : List Instr} (hcmds : ∀ i ∈ cmds, NotCsum i) (e : Engine) :
    ∃ e', (∀ s : State, s.eng = e → runCommands cmds s = .next (s.withEngine e')) ∧
      ∀ (s : State) (rest : List Input), s.eng = e →
        ∃ r, runSteps cmds.length { s with inputs := cmds.map (commandInput s.window) ++ rest } =
          .next { s with eng := e', inputs := rest, race := r } := by
  induction cmds generalizing e with
  | nil =>
    refine ⟨e, ?_, fun s rest hs => ⟨s.race, ?_⟩⟩
    · rintro s rfl
      rfl
    · subst hs
      rfl
  | cons i is ih =>
    obtain ⟨⟨h32, h16⟩, his⟩ := List.forall_mem_cons.1 hcmds
    obtain ⟨e₁, hexec⟩ := exec_of_not_csum h32 h16 e
    obtain ⟨e₂, hrun, hsteps⟩ := ih his e₁
    refine ⟨e₂, fun s hs => ?_, fun s rest hs => ?_⟩
    · rw [runCommands_cons_of_next (hexec s hs), hrun (s.withEngine e₁) rfl]
      rfl
    · obtain ⟨r, hr⟩ := hsteps { s with eng := e₁, race := [] } rest rfl
      exact ⟨r, (runSteps_succ_of_next (step_commandInput hexec hs _) is.length).trans hr⟩

/-! ### What a stream assembles to -/

/-- The commands of `FEEDBYTES` (R74): a FEED16 for each pair, the first byte low, and a FEED8 for an odd last byte. -/
def feedCommands : List Byte → List Instr
  | [] => []
  | [b] => [.feed8 b]
  | lo :: hi :: rest => .feed16 (concatBytes hi lo) :: feedCommands rest

theorem loByte_concatBytes (hi lo : Byte) : loByte (concatBytes hi lo) = lo := by
  have := lo.isLt
  apply BitVec.eq_of_toNat_eq
  rw [loByte_eq_ofNat, BitVec.toNat_ofNat, concatBytes_toNat]
  omega

theorem hiByte_concatBytes (hi lo : Byte) : hiByte (concatBytes hi lo) = hi := by
  have := lo.isLt
  have := hi.isLt
  apply BitVec.eq_of_toNat_eq
  rw [hiByte_eq_ofNat, BitVec.toNat_ofNat, concatBytes_toNat]
  omega

/-- The commands carry the bytes, in their order (42_stream_commands.md R110). -/
theorem streamOf_feedCommands (bs : List Byte) : streamOf (feedCommands bs) = bs := by
  induction bs using feedCommands.induct with
  | case1 => rfl
  | case2 b => rfl
  | case3 lo hi rest ih =>
    calc streamOf (feedCommands (lo :: hi :: rest))
      _ = loByte (concatBytes hi lo) :: hiByte (concatBytes hi lo) :: streamOf (feedCommands rest) := rfl
      _ = lo :: hi :: rest := by rw [loByte_concatBytes, hiByte_concatBytes, ih]

theorem mayFeed_of_mem_feedCommands (bs : List Byte) : ∀ c ∈ feedCommands bs, mayFeed c = true := by
  induction bs using feedCommands.induct with
  | case1 => exact nofun
  | case2 b => exact List.forall_mem_singleton.2 rfl
  | case3 lo hi rest ih => exact List.forall_mem_cons.2 ⟨rfl, ih⟩

theorem notCsum_of_mayFeed {i : Instr} (h : mayFeed i = true) : NotCsum i := by
  constructor <;> rintro rfl <;> cases h

/-- A stream opened by `i`, fed and closed reads no memory. -/
theorem notCsum_of_mem_stream {i : Instr} (hi : NotCsum i) (bs : List Byte) :
    ∀ c ∈ i :: feedCommands bs ++ [.final], NotCsum c := by
  simp only [List.cons_append, List.forall_mem_cons, List.forall_mem_append]
  exact ⟨hi, fun c hc => notCsum_of_mayFeed (mayFeed_of_mem_feedCommands bs c hc), by decide⟩

/-- The lines of `FEEDBYTES` assemble to the command writes of its commands. -/
theorem inputs_feedLines (window : Nat) (bs : List Byte) :
    (feedLines (bs.map BitVec.toNat)).flatMap (AsmLine.inputs window) =
      (feedCommands bs).map (commandInput window) := by
  induction bs using feedCommands.induct with
  | case1 => rfl
  | case2 b =>
    calc (feedLines ([b].map BitVec.toNat)).flatMap (AsmLine.inputs window)
      _ = [commandInput window (.feed8 (BitVec.ofNat 8 b.toNat))] := rfl
      _ = (feedCommands [b]).map (commandInput window) := by
        rw [BitVec.ofNat_toNat, BitVec.setWidth_eq]
        rfl
  | case3 lo hi rest ih =>
    have hword : BitVec.ofNat 16 (lo.toNat + 256 * hi.toNat) = concatBytes hi lo := by
      rw [← concatBytes_toNat, BitVec.ofNat_toNat, BitVec.setWidth_eq]
    calc (feedLines ((lo :: hi :: rest).map BitVec.toNat)).flatMap (AsmLine.inputs window)
      _ = commandInput window (.feed16 (BitVec.ofNat 16 (lo.toNat + 256 * hi.toNat))) ::
            (feedLines (rest.map BitVec.toNat)).flatMap (AsmLine.inputs window) := rfl
      _ = (feedCommands (lo :: hi :: rest)).map (commandInput window) := by
        rw [hword, ih]
        rfl

theorem all_fits_toNat (bs : List Byte) : (bs.map BitVec.toNat).all (fits 8) = true := by
  simp only [List.all_map, List.all_eq_true, Function.comp, fits, decide_eq_true_eq]
  exact fun b _ => b.isLt

/-- The lines of a stream that the line `l` opens assemble to the command writes of the stream that `i` opens. -/
theorem inputs_stream {window : Nat} {l : AsmLine} {i : Instr} (hl : l.inputs window = [commandInput window i])
    (bs : List Byte) :
    (l :: feedLines (bs.map BitVec.toNat) ++ [AsmLine.final]).flatMap (AsmLine.inputs window) =
      (i :: feedCommands bs ++ [Instr.final]).map (commandInput window) := by
  rw [List.flatMap_append, List.flatMap_cons, hl, inputs_feedLines, List.map_append]
  rfl

theorem assemble_stream32 (window : Nat) (bs : List Byte) :
    assemble window (.stream32 (bs.map BitVec.toNat)) =
      some ((Instr.init32 :: feedCommands bs ++ [Instr.final]).map (commandInput window)) :=
  (if_pos (all_fits_toNat bs)).trans (congrArg some (inputs_stream (l := .init32) rfl bs))

theorem assemble_stream16 (window : Nat) (bs : List Byte) :
    assemble window (.stream16 (bs.map BitVec.toNat)) =
      some ((Instr.init16 :: feedCommands bs ++ [Instr.final]).map (commandInput window)) :=
  (if_pos (all_fits_toNat bs)).trans (congrArg some (inputs_stream (l := .init16) rfl bs))

/-! ### Reading RESULT -/

/-- `RD RESULT` is one step, which returns RESULT and changes nothing else (10_state.md R36). -/
theorem runSteps_read_result (s : State) :
    runSteps 1 { s with inputs := [.read (64 * s.window + 0x1C) 32] } =
      .next { s with inputs := [], responses := s.eng.result :: s.responses } := by
  refine runSteps_succ_of_next ((step_cons rfl).trans ?_) 0
  exact performRead_offset (off := 0x1C) rfl (by decide) (State.select_window { s with inputs := [] })

/-- The line and then `RD RESULT` run safely on the addressed engine, and the word returned is `x`. -/
abbrev ReadsBack (s : State) (l : AsmLine) (x : Word) : Prop :=
  ∃ p r, assemble s.window l = some p ∧ assemble s.window (.rd .result) = some r ∧
    SafeRun (p ++ r).length { s with inputs := p ++ r } ∧
    ∃ t, runSteps (p ++ r).length { s with inputs := p ++ r } = .next t ∧ t.responses = x :: s.responses

/-- A line of commands that read no memory reads back the RESULT that the commands leave. -/
theorem readsBack_of_runCommands {s t : State} {l : AsmLine} {cmds : List Instr} (hmark : s.boundsBroken = false)
    (hl : assemble s.window l = some (cmds.map (commandInput s.window))) (hcmds : ∀ i ∈ cmds, NotCsum i)
    (ht : runCommands cmds s = .next t) : ReadsBack s l t.eng.result := by
  obtain ⟨e, hrun, hsteps⟩ := run_of_not_csum hcmds s.eng
  obtain rfl := Host.Outcome.next.inj ((hrun s rfl).symm.trans ht)
  obtain ⟨r, hr⟩ := hsteps s [.read (64 * s.window + 0x1C) 32] rfl
  have hall := (runSteps_add_of_next hr 1).trans (runSteps_read_result { s with eng := e, race := r })
  have hlen : (cmds.map (commandInput s.window) ++ [Input.read (64 * s.window + 0x1C) 32]).length =
      cmds.length + 1 := by
    rw [List.length_append, List.length_map, List.length_singleton]
  rw [← hlen] at hall
  exact ⟨_, _, hl, rfl, ⟨_, hall, hmark⟩, _, hall, rfl⟩

/-- Settles O50: the line assembles to the commands of a stream of the bytes, and streams agree with the reference. -/
theorem assembledStreamsReadTheirChecksum : Obligations.AssembledStreamsReadTheirChecksum := by
  intro s bs hmark
  obtain ⟨⟨t32, hrun32, hresult32, -⟩, ⟨t16, hrun16, hresult16, -⟩, -⟩ :=
    streamsAgreeWithTheReference s (feedCommands bs) (mayFeed_of_mem_feedCommands bs)
  rw [streamOf_feedCommands] at hresult32 hresult16
  rw [← hresult32, ← hresult16]
  exact ⟨readsBack_of_runCommands hmark (assemble_stream32 _ bs) (notCsum_of_mem_stream (by decide) bs) hrun32,
    readsBack_of_runCommands hmark (assemble_stream16 _ bs) (notCsum_of_mem_stream (by decide) bs) hrun16⟩

end Sys2Proof.Machine
end
